-- ==== Sys2Proof/Word.lean ====
section
/-! DEFINITION. The byte and the element: the plain data every layer shares. -/

namespace Sys2Proof

/-- A storage byte (20_memory.md R50: the storage address space is byte-addressed). -/
abbrev Byte := BitVec 8

/-- An element is a list of bytes that the block never interprets (00_scope.md R17, 20_memory.md R54). -/
abbrev Elem := List Byte

end Sys2Proof
end

