-- ==== Sys2Proof/Config.lean ====
section
/-! DEFINITION. What one build fixes (the OPEN parameters CTR_W and ADDR_W) and the free values the spec leaves open. -/

namespace Sys2Proof

/-- The build parameters of one chip.
`ctrW` is `W` (`CTR_W`, 00_scope.md R6) and `addrW` is `AW` (`ADDR_W`, R7); the spec gives each as an OPEN integer
that is at least 1, which the model takes as an argument (93_implementation_defined.md U11). -/
structure Params where
  ctrW : Nat
  addrW : Nat
  ctrW_pos : 1 ≤ ctrW
  addrW_pos : 1 ≤ addrW
  deriving DecidableEq, Repr

/-- The parameters the spec's test vectors use unless they say otherwise: `AW = 32` and `W = 32` (95_test_vectors.md). -/
def Params.vectors : Params := ⟨32, 32, by decide, by decide⟩

/-- DESIGN CHOICE (log 3), safe. The value of a storage byte that nothing has written: 10_state.md R42 and
93_implementation_defined.md U10 leave it open ("any value"). A free value: no body, one value for each address, so that
a repeated read returns the same byte (20_memory.md R58). -/
opaque Config.powerOnByte : Nat → Byte

/-- DESIGN CHOICE (log 4), safe. The free draws of a race (93_implementation_defined.md U4) and of an abandoned command
(U8): draw number `n` decides whether one byte keeps its old value or takes the new one. A free value: no body. -/
opaque Config.freeBit : Nat → Bool

end Sys2Proof
end

