-- ==== Sys2Proof/Syntax.lean ====
section
/-! DEFINITION. Commands, requests and responses: the request and response formats of 30_encoding.md and one constructor
for each row of the opcode table. -/

namespace Sys2Proof

/-- One command, with the operands the operand table (30_encoding.md R73) gives it and no other.
Operand values are unsigned integers taken as they are from their fields (R74). -/
inductive Instr
  /-- `INIT base, esize, num` (40_configuration.md R90): operands A, B, C. -/
  | init (base esize num : Nat)
  /-- `ENQ e` (41_single_element.md R100): the write data D; R77 asks for exactly one element of ESIZE bytes. -/
  | enq (data : List Elem)
  /-- `DEQ` (R104). -/
  | deq
  /-- `PEEK idx` (R108): operand B. -/
  | peek (idx : Nat)
  /-- `ISEMPTY` (42_queries.md R120). -/
  | isempty
  /-- `ISFULL` (R122). -/
  | isfull
  /-- `OCC` (R124). -/
  | occ
  /-- `ENQN n, e0, ...` (43_bulk.md R130): operand B and the write data D; R77 asks for exactly `n` elements. -/
  | enqn (n : Nat) (data : List Elem)
  /-- `DEQN n` (R135): operand B. -/
  | deqn (n : Nat)
  /-- Any of the 247 reserved values of the command byte (30_encoding.md R78): the table's RESERVED rows, one constructor for
  them all (DESIGN CHOICE, log 12). -/
  | reserved (cmd : BitVec 8)
  deriving DecidableEq, Repr

/-- The alias `PUT` of `ENQ` (30_encoding.md R82). -/
abbrev Instr.put (data : List Elem) : Instr := .enq data

/-- The alias `GET` of `DEQ` (30_encoding.md R82). -/
abbrev Instr.get : Instr := .deq

/-- The pseudo-instruction `CLEAR base, esize, num`, which expands to `INIT base, esize, num` (30_encoding.md R83). -/
abbrev Instr.clear (base esize num : Nat) : Instr := .init base esize num

/-- The nine opcodes of the opcode map (30_encoding.md R75). -/
inductive Opcode
  | init | enq | deq | peek | isempty | isfull | occ | enqn | deqn
  deriving DecidableEq, Repr

/-- The opcode a command belongs to; a reserved encoding has none (30_encoding.md R80). -/
def Instr.opcode : Instr → Option Opcode
  | .init _ _ _ => some .init
  | .enq _ => some .enq
  | .deq => some .deq
  | .peek _ => some .peek
  | .isempty => some .isempty
  | .isfull => some .isfull
  | .occ => some .occ
  | .enqn _ _ => some .enqn
  | .deqn _ => some .deqn
  | .reserved _ => none

/-- One request on the request port: `req = {CMD, A, B, C, D}` (30_encoding.md R70). -/
structure Request (p : Params) where
  cmd : BitVec 8
  a : BitVec p.addrW
  b : BitVec p.ctrW
  c : BitVec p.ctrW
  d : List Elem
  deriving DecidableEq, Repr

/-- One response: `resp = {OK, VAL, R}` (30_encoding.md R76; the field names by 90_conflicts.md C8). -/
structure Response (p : Params) where
  ok : Bool
  val : BitVec p.ctrW
  r : List Elem
  deriving DecidableEq, Repr

end Sys2Proof
end

