-- ==== Sys2Proof/Decode.lean ====
section
/-! DEFINITION. The command byte, the opcode map, the decoder from requests to commands and the encoder back
(30_encoding.md), and the assembler text of commands and responses (R81). -/

namespace Sys2Proof

/-- `OP = CMD[3:0]` (30_encoding.md R72). -/
def cmdOp (c : BitVec 8) : BitVec 4 := c.extractLsb' 0 4

/-- `RSV = CMD[7:4]` (30_encoding.md R72). -/
def cmdRsv (c : BitVec 8) : BitVec 4 := c.extractLsb' 4 4

/-- The opcode map (30_encoding.md R75): the opcode that each value of `OP` selects, none where it is reserved. -/
def opcodeOf (op : BitVec 4) : Option Opcode :=
  match op.toNat with
  | 0x1 => some .init
  | 0x2 => some .enq
  | 0x3 => some .deq
  | 0x4 => some .peek
  | 0x5 => some .isempty
  | 0x6 => some .isfull
  | 0x7 => some .occ
  | 0x8 => some .enqn
  | 0x9 => some .deqn
  | _ => none

/-- The row a command byte selects: an opcode, or none for the reserved row (30_encoding.md R78, R80).
A byte with `RSV` nonzero is reserved whatever its `OP`. -/
def decodeCmd (c : BitVec 8) : Option Opcode :=
  if cmdRsv c = 0 then opcodeOf (cmdOp c) else none

/-- The decoder, total on every request (30_encoding.md R80). It keeps the operands the operand table gives the opcode
and drops the ignored ones (R73). -/
def decode {p : Params} (q : Request p) : Instr :=
  match decodeCmd q.cmd with
  | some .init => .init q.a.toNat q.b.toNat q.c.toNat
  | some .enq => .enq q.d
  | some .deq => .deq
  | some .peek => .peek q.b.toNat
  | some .isempty => .isempty
  | some .isfull => .isfull
  | some .occ => .occ
  | some .enqn => .enqn q.b.toNat q.d
  | some .deqn => .deqn q.b.toNat
  | none => .reserved q.cmd

/-- A request that carries only a command byte: every operand field zero and no write data. -/
def bareRequest (p : Params) (cmd : BitVec 8) : Request p := ⟨cmd, 0, 0, 0, []⟩

/-- The command byte of an opcode: the `CMD` column of the opcode map (30_encoding.md R75). -/
def Opcode.cmd : Opcode → BitVec 8
  | .init => 0x01
  | .enq => 0x02
  | .deq => 0x03
  | .peek => 0x04
  | .isempty => 0x05
  | .isfull => 0x06
  | .occ => 0x07
  | .enqn => 0x08
  | .deqn => 0x09

/-- The encoder: the request of a command, its operands in the fields of 30_encoding.md R73 and every ignored field zero
or empty. -/
def encode (p : Params) : Instr → Request p
  | .init base esize num => ⟨Opcode.init.cmd, BitVec.ofNat _ base, BitVec.ofNat _ esize, BitVec.ofNat _ num, []⟩
  | .enq data => ⟨Opcode.enq.cmd, 0, 0, 0, data⟩
  | .deq => bareRequest p Opcode.deq.cmd
  | .peek idx => ⟨Opcode.peek.cmd, 0, BitVec.ofNat _ idx, 0, []⟩
  | .isempty => bareRequest p Opcode.isempty.cmd
  | .isfull => bareRequest p Opcode.isfull.cmd
  | .occ => bareRequest p Opcode.occ.cmd
  | .enqn n data => ⟨Opcode.enqn.cmd, 0, BitVec.ofNat _ n, 0, data⟩
  | .deqn n => ⟨Opcode.deqn.cmd, 0, BitVec.ofNat _ n, 0, []⟩
  | .reserved cmd => bareRequest p cmd

/-- The request of one table word: a command is one byte (30_encoding.md R72), and the operands, which the table gives no
bits, are zero. -/
def wordRequest (p : Params) (nbits w : Nat) : Request p := bareRequest p (BitVec.ofNat 8 (w % 2 ^ nbits))

/-- The instruction the decoder reads from a table word of `nbits` bits. There is no other length than one byte
(30_encoding.md R72, R79). -/
def decodeTableWord (nbits w : Nat) : Option Instr :=
  if nbits = 8 then some (decode (wordRequest Params.vectors nbits w)) else none

/-! ### Assembler text (30_encoding.md R81) -/

/-- A comma and a space between the parts. -/
def joinText : List String → String
  | [] => ""
  | [t] => t
  | t :: u :: ts => t ++ ", " ++ joinText (u :: ts)

/-- An element as the assembler writes it: its bytes in list order between braces (code points 7B and 7D). -/
def elemText (e : Elem) : String :=
  String.singleton (Char.ofNat 0x7B) ++ joinText (e.map fun b => toString b.toNat) ++ String.singleton (Char.ofNat 0x7D)

/-- The assembler text of a command, numbers in decimal. A reserved encoding has no mnemonic in R81; its text is the
form the spec's program P5 uses (DESIGN CHOICE, log 14). -/
def Instr.toText : Instr → String
  | .init base esize num => "INIT " ++ joinText [toString base, toString esize, toString num]
  | .enq data => "ENQ " ++ joinText (data.map elemText)
  | .deq => "DEQ"
  | .peek idx => "PEEK " ++ toString idx
  | .isempty => "ISEMPTY"
  | .isfull => "ISFULL"
  | .occ => "OCC"
  | .enqn n data => "ENQN " ++ joinText (toString n :: data.map elemText)
  | .deqn n => "DEQN " ++ toString n
  | .reserved cmd => "reserved CMD=" ++ toString cmd.toNat

/-- The text of a response, `-> ok=<0|1> val=<v> r=[...]`. -/
def Response.toText {p : Params} (t : Response p) : String :=
  "-> ok=" ++ (if t.ok then "1" else "0") ++ " val=" ++ toString t.val.toNat ++ " r=[" ++ joinText (t.r.map elemText) ++ "]"

end Sys2Proof
end

