-- ==== Sys2Proof/Machine/State.lean ====
section
/-! DEFINITION. The state of the machine as plain data: the six registers of 10_state.md, the response port and the reset
input, the storage, what the outside world does next, and the model's counter of free draws; the reasons a step stops;
the state right after reset. -/

namespace Sys2Proof.Machine

/-- Why the machine stops with a fault. -/
inductive Fault
  /-- The storage answered an access with an error. Raised by a command that reads or writes storage while
  `State.backing` is `erring` (20_memory.md R69, 93_implementation_defined.md U3: fault). Safe: the model stops. -/
  | storageError
  /-- An access beyond the top of the storage address space, which holds `2^AW` bytes (20_memory.md R50); 00_scope.md R13
  says no access reaches there, and no state that satisfies INV does. Raised by the shared access check. Safe. -/
  | outsideAddressSpace
  deriving DecidableEq, Repr

/-- Why the machine gives the run no meaning. -/
inductive Refusal
  /-- An instruction that has no meaning yet; no arm of `exec` answers with it. Safe. -/
  | notModelled (mnemonic : String)
  /-- A malformed request: CFG = 1 and the write data of ENQ or ENQN is not of the shape 30_encoding.md R77 asks for
  (93_implementation_defined.md U6: refuse). Raised by `execEnq` and `execEnqn`. Safe. -/
  | malformedRequest
  /-- The buffer is used after the caller released its backing storage (00_scope.md R19, 20_memory.md R69,
  93_implementation_defined.md U5: refuse; log 10). Raised by the shared guard `State.useBuffer`. Safe. -/
  | storageReleased
  /-- The state violates the invariant INV of 10_state.md R37 (93_implementation_defined.md U7: refuse). Raised by
  `step`. Safe: no such state is reachable from reset. -/
  | stateOutsideInvariant
  deriving DecidableEq, Repr

/-- Storage contents: (address, byte) pairs at strictly rising addresses (see `Memory.wf`). An unlisted address is a byte
nothing has written (DESIGN CHOICE, log 3). -/
abbrev Memory := List Host.Cell

/-- The six registers of the block (10_state.md R20 to R25, R27). -/
structure Regs (p : Params) where
  /-- R20: elements ever enqueued since the last successful INIT, modulo `2^W`. -/
  head : BitVec p.ctrW
  /-- R21: elements ever dequeued since the last successful INIT, modulo `2^W`. -/
  tail : BitVec p.ctrW
  /-- R22: the byte address of slot 0. -/
  base : BitVec p.addrW
  /-- R23: bytes per element. -/
  esize : BitVec p.ctrW
  /-- R24: the number of slots. -/
  cap : BitVec p.ctrW
  /-- R25: a successful INIT has occurred since reset. -/
  cfg : Bool
  deriving DecidableEq, Repr

/-- The register file after power-on or external reset (10_state.md R42). -/
def Regs.reset (p : Params) : Regs p :=
  { head := 0, tail := 0, base := 0, esize := 0, cap := 0, cfg := false }

/-- The identifiers of the register map (10_state.md R27). -/
inductive RegId
  | head | tail | base | esize | cap | cfg
  deriving DecidableEq, Repr

/-- The condition of the storage, which the platform decides (20_memory.md R69). -/
inductive Backing
  /-- The region is backed by plain memory (R58, 70_reset_and_hazards.md R172). -/
  | backed
  /-- The caller has released it (93_implementation_defined.md U5). -/
  | released
  /-- It answers accesses with an error (93_implementation_defined.md U3). -/
  | erring
  deriving DecidableEq, Repr

/-- The accesses of other agents that overlap one command (20_memory.md R62): bytes they write, in order, and addresses
they read. -/
structure Foreign (p : Params) where
  writes : List (BitVec p.addrW × Byte)
  reads : List (BitVec p.addrW)
  deriving DecidableEq, Repr

/-- One thing the outside world does (INVENTORY.md, Host interface). -/
inductive Input (p : Params)
  /-- The requester offers a request (30_encoding.md R70); no other agent's access overlaps the command. -/
  | command (req : Request p)
  /-- The same, while other agents access storage (20_memory.md R62, 93_implementation_defined.md U4). -/
  | racingCommand (req : Request p) (other : Foreign p)
  /-- The same, and `rst` is asserted while the command is in flight (70_reset_and_hazards.md R170, U8). -/
  | abandonedCommand (req : Request p) (other : Foreign p)
  /-- The reset input takes a level: `true` is asserted (R170). -/
  | rst (level : Bool)
  /-- Another agent writes storage between two commands (20_memory.md R62). -/
  | foreignWrite (cells : List (BitVec p.addrW × Byte))
  /-- Another agent reads storage between two commands (R62, 70_reset_and_hazards.md R177). -/
  | foreignRead (addrs : List (BitVec p.addrW))
  /-- The condition of the storage becomes another one (20_memory.md R69). -/
  | storage (condition : Backing)
  deriving DecidableEq, Repr

/-- The state of the machine. -/
structure State where
  /-- The build parameters; nothing changes them (00_scope.md R6, R7). -/
  params : Params
  /-- The registers (10_state.md R27). -/
  regs : Regs params
  /-- The storage contents (20_memory.md R50). -/
  mem : Memory
  /-- The response port: the response of the last completed command, none since reset (30_encoding.md R76).
  DEDUCED, log 8. -/
  rsp : Option (Response params)
  /-- The level of the reset input (70_reset_and_hazards.md R170). -/
  rst : Bool
  /-- The condition of the storage (20_memory.md R69); its value at reset is a DESIGN CHOICE, log 5. -/
  backing : Backing
  /-- The storage the present buffer was set up on has been released and backed again since, with no successful INIT in
  between, so the buffer must not be used (00_scope.md R19, 93_implementation_defined.md U5). The model's own record of the
  caller's duty (DEDUCED, log 10). -/
  stale : Bool
  /-- The bytes that the last storage read of other agents returned (20_memory.md R62); log 6. -/
  foreignData : List Byte
  /-- What the outside world does next, oldest first: the requester's command stream (10_state.md R26) as the arbiter
  presents it (60_exceptions.md R160), among the other inputs. The model's own field (DESIGN CHOICE, log 2). -/
  inputs : List (Input params)
  /-- How many free draws have been taken. The model's own field (DESIGN CHOICE, log 4). -/
  draws : Nat
  deriving DecidableEq, Repr

/-- The state right after reset of a chip with parameters `p` (10_state.md R42, 70_reset_and_hazards.md R170, R171): every
register at its reset value, no response, `rst` deasserted, and the block waiting on the request port. -/
def State.resetAt (p : Params) : State :=
  { params := p, regs := Regs.reset p, mem := [], rsp := none, rst := false, backing := .backed, stale := false,
    foreignData := [], inputs := [], draws := 0 }

/-- The state right after reset, at the parameters of the spec's test vectors (DESIGN CHOICE, log 1). -/
def State.reset : State := State.resetAt Params.vectors

end Sys2Proof.Machine
end

