-- ==== Sys2Proof/Machine/Ops.lean ====
section
/-! DEFINITION. The named operations over storage, registers and ports that every meaning is written with: the storage
primitives (00_scope.md R13), the derived values of the registers (10_state.md R30 to R32), slot addresses (20_memory.md
R52), the response primitive and FAIL (00_scope.md R14), the access check, and the shared transfers of the element commands.

RBUF raises no exception and takes no trap (60_exceptions.md R150, R154). FAIL (`State.fail`) is what stands in the place of
taking an exception: it is written once and every failure cause calls it. There is nothing to return from (R154). -/

namespace Sys2Proof.Machine

/-- The three outcomes of this machine. -/
abbrev Result := Host.Outcome State Fault Refusal

/-! ### Storage bytes -/

/-- The canonical form of storage contents: addresses strictly rising. -/
abbrev Memory.wf (m : Memory) : Prop := m.Pairwise fun x y => x.1 < y.1

/-- Every listed address exists in a space of `2^aw` bytes (20_memory.md R50). -/
abbrev Memory.inSpace (aw : Nat) (m : Memory) : Prop := ∀ c ∈ m, c.1 < 2 ^ aw

/-- The byte that has been written at an address. An unlisted address reads as `none`: nothing has written it. -/
def Memory.written : Memory → Nat → Option Byte
  | [], _ => none
  | c :: m, a => if a = c.1 then some c.2 else Memory.written m a

/-- The byte that storage holds at an address; one that nothing has written holds a free value
(93_implementation_defined.md U10, log 3). -/
def Memory.read (m : Memory) (a : Nat) : Byte := (m.written a).getD (Config.powerOnByte a)

/-- Store one byte, keeping the canonical form. -/
def Memory.write : Memory → Nat → Byte → Memory
  | [], a, b => [(a, b)]
  | c :: m, a, b =>
    if a < c.1 then (a, b) :: c :: m
    else if a = c.1 then (a, b) :: m
    else c :: Memory.write m a b

/-- Store bytes in list order. -/
def Memory.writeCells : Memory → List Host.Cell → Memory
  | m, [] => m
  | m, c :: cs => Memory.writeCells (m.write c.1 c.2) cs

/-- `MemRead(addr, n)`: the `n` bytes from `addr` upward, in that order (00_scope.md R13). -/
def Memory.readBytes (m : Memory) (addr : Nat) : Nat → List Byte
  | 0 => []
  | n + 1 => m.read addr :: Memory.readBytes m (addr + 1) n

/-- The stores of `MemWrite(addr, n, bs)`: byte `bs[j]` goes to `addr + j` (00_scope.md R13, 20_memory.md R54). -/
def cellsAt (addr : Nat) : List Byte → List Host.Cell
  | [] => []
  | b :: bs => (addr, b) :: cellsAt (addr + 1) bs

/-! ### Registers -/

variable {p : Params}

/-- The number of a register in the register map; an identifier only (10_state.md R27). -/
def RegId.number : RegId → Nat
  | .head => 0
  | .tail => 1
  | .base => 2
  | .esize => 3
  | .cap => 4
  | .cfg => 5

/-- The width of a register (10_state.md R27). -/
def RegId.width (p : Params) : RegId → Nat
  | .head | .tail | .esize | .cap => p.ctrW
  | .base => p.addrW
  | .cfg => 1

/-- The value of a register, an unsigned integer (00_scope.md R11). No command does this (10_state.md R27): it is for claims
and tests. -/
def Regs.value (r : Regs p) : RegId → Nat
  | .head => r.head.toNat
  | .tail => r.tail.toNat
  | .base => r.base.toNat
  | .esize => r.esize.toNat
  | .cap => r.cap.toNat
  | .cfg => r.cfg.toNat

/-- Occupancy, `OCC = HEAD -w TAIL` (10_state.md R30). -/
def Regs.occ (r : Regs p) : BitVec p.ctrW := r.head - r.tail

/-- `MASK = CAP - 1` (10_state.md R31). -/
def Regs.mask (r : Regs p) : BitVec p.ctrW := r.cap - 1

/-- The slot of a counter value, `c & MASK` (10_state.md R31). -/
def Regs.slot (r : Regs p) (c : BitVec p.ctrW) : BitVec p.ctrW := c &&& r.mask

/-- `SPACE = CAP - OCC` (10_state.md R32). -/
def Regs.space (r : Regs p) : BitVec p.ctrW := r.cap - r.occ

/-- The byte address of a slot, `saddr(s) = BASE + s * ESIZE`, computed exactly (20_memory.md R52). -/
def Regs.saddr (r : Regs p) (s : Nat) : Nat := r.base.toNat + s * r.esize.toNat

/-- Where the element of counter value `c` lies: `saddr(c & MASK)` (20_memory.md R52). -/
def Regs.addrOf (r : Regs p) (c : BitVec p.ctrW) : Nat := r.saddr (r.slot c).toNat

/-- Where the `i`-th element from now is enqueued: `saddr((HEAD +w i) & MASK)` (41_single_element.md R100, 43_bulk.md
R130). -/
def Regs.enqAddr (r : Regs p) (i : Nat) : Nat := r.addrOf (r.head + BitVec.ofNat p.ctrW i)

/-- Where logical position `i` lies: `saddr((TAIL +w i) & MASK)` (41_single_element.md R104, R108, 43_bulk.md R135). -/
def Regs.deqAddr (r : Regs p) (i : Nat) : Nat := r.addrOf (r.tail + BitVec.ofNat p.ctrW i)

/-- The invariant INV of the registers (10_state.md R37). -/
abbrev Regs.Inv (r : Regs p) : Prop :=
  (r.cfg = false → r.head = 0 ∧ r.tail = 0) ∧
  (r.cfg = true →
    r.base ≠ 0 ∧ 1 ≤ r.esize.toNat ∧ (∃ j, j < p.ctrW ∧ r.cap.toNat = 2 ^ j) ∧
    r.base.toNat + r.cap.toNat * r.esize.toNat ≤ 2 ^ p.addrW ∧ r.occ.toNat ≤ r.cap.toNat)

/-! ### Elements in storage -/

/-- The element at logical position `i`: one `MemRead(saddr, ESIZE)` (20_memory.md R56). -/
def Regs.elemAt (r : Regs p) (m : Memory) (i : Nat) : Elem := m.readBytes (r.deqAddr i) r.esize.toNat

/-- The elements at `k` logical positions from `i` upward, in ascending order (43_bulk.md R137). -/
def Regs.elemsFrom (r : Regs p) (m : Memory) (i : Nat) : Nat → List Elem
  | 0 => []
  | k + 1 => r.elemAt m i :: Regs.elemsFrom r m (i + 1) k

/-- The stores that enqueue elements one after the other, the first as the `i`-th from now, in ascending order
(43_bulk.md R130, R137). -/
def Regs.enqCells (r : Regs p) (i : Nat) : List Elem → List Host.Cell
  | [] => []
  | e :: es => cellsAt (r.enqAddr i) e ++ Regs.enqCells r (i + 1) es

/-! ### State updates and the response -/

/-- Replace the registers; every write of one command takes effect together (00_scope.md R12). -/
abbrev State.withRegs (s : State) (r : Regs s.params) : State := { s with regs := r }

/-- Replace the storage contents. -/
abbrev State.withMem (s : State) (m : Memory) : State := { s with mem := m }

/-- `respond(ok, val, rdata)`: the one response of the command (00_scope.md R14, 30_encoding.md R76). -/
abbrev State.respond (s : State) (ok : Bool) (val : BitVec s.params.ctrW) (rdata : List Elem) : State :=
  { s with rsp := some { ok := ok, val := val, r := rdata } }

/-- `FAIL`: `respond(0, 0, [])`, and no change to any register or to any storage byte (00_scope.md R14, 60_exceptions.md
R150). -/
abbrev State.fail (s : State) : State := s.respond false 0 []

/-- The condition of the storage becomes another one (20_memory.md R69). A buffer whose storage was released stays out of use
when storage is there again, until a successful INIT (DEDUCED, log 10). Storage keeps every byte across the change: what it
holds when it is backed again the spec does not say (DESIGN CHOICE, log 17). -/
abbrev State.setBacking (s : State) (condition : Backing) : State :=
  { s with backing := condition, stale := s.stale || decide (s.backing = .released) }

/-- The next input is taken. -/
abbrev State.withInputs (s : State) (rest : List (Input s.params)) : State := { s with inputs := rest }

/-! ### The guard, the access check and the shared transfers -/

/-- The backing storage of the present buffer has been released, whether or not storage is there again (00_scope.md R19). -/
def State.storageGone (s : State) : Bool := decide (s.backing = .released) || s.stale

/-- What every command that uses the buffer does first, in the order of 60_exceptions.md R153: it is `FAIL` while `CFG = 0`
(R152), and a use of the buffer after its storage was released is refused (00_scope.md R19, 20_memory.md R69,
93_implementation_defined.md U5; DEDUCED, log 10). INIT, which sets up a buffer anew, and the reserved encodings, which use
none, do without it. -/
def State.useBuffer (s : State) (body : Result) : Result :=
  if s.regs.cfg = false then .next s.fail
  else if s.storageGone then .refused .storageReleased
  else body

/-- Perform the storage accesses of a command, each an address and a length, and go on to `done`. With no access an error of
the storage does not matter. A storage error faults (20_memory.md R69); an access lies inside the storage address space
(00_scope.md R13). -/
def State.access (s : State) (accesses : List (Nat × Nat)) (done : State) : Result :=
  if accesses.isEmpty then .next done
  else if s.backing = .erring then .fault .storageError
  else if accesses.all fun x => decide (x.1 + x.2 ≤ 2 ^ s.params.addrW) then .next done
  else .fault .outsideAddressSpace

/-- The `k` element writes of an enqueue (20_memory.md R60). -/
def Regs.enqAccesses (r : Regs p) (k : Nat) : List (Nat × Nat) :=
  (List.range k).map fun i => (r.enqAddr i, r.esize.toNat)

/-- The `k` element reads of a dequeue (20_memory.md R60). -/
def Regs.deqAccesses (r : Regs p) (k : Nat) : List (Nat × Nat) :=
  (List.range k).map fun i => (r.deqAddr i, r.esize.toNat)

/-- Store the elements at the next write slots, advance HEAD by their number, and respond success with `val`
(41_single_element.md R100, 43_bulk.md R130). -/
def State.enqueue (s : State) (es : List Elem) (val : Nat) : Result :=
  s.access (s.regs.enqAccesses es.length)
    { s with
      mem := s.mem.writeCells (s.regs.enqCells 0 es)
      regs := { s.regs with head := s.regs.head + BitVec.ofNat s.params.ctrW es.length }
      rsp := some { ok := true, val := BitVec.ofNat s.params.ctrW val, r := [] } }

/-- Read the `k` oldest elements, advance TAIL by `k`, and respond success with `val` and the elements
(41_single_element.md R104, 43_bulk.md R135). -/
def State.dequeue (s : State) (k val : Nat) : Result :=
  s.access (s.regs.deqAccesses k)
    { s with
      regs := { s.regs with tail := s.regs.tail + BitVec.ofNat s.params.ctrW k }
      rsp := some { ok := true, val := BitVec.ofNat s.params.ctrW val, r := s.regs.elemsFrom s.mem 0 k } }

end Sys2Proof.Machine
end

