-- ==== Sys2Proof/Machine/Flags.lean ====
section
/-! DEFINITION. The predicates and outputs: EMPTY and FULL (10_state.md R33, R34), the status outputs (R36), the port
signals between commands (30_encoding.md R70, R76, 70_reset_and_hazards.md R170), and the tests of INIT (40_configuration.md
R90, R94). -/

namespace Sys2Proof.Machine

variable {p : Params}

/-- `EMPTY = (OCC == 0)` (10_state.md R33). -/
def Regs.empty (r : Regs p) : Bool := decide (r.occ = 0)

/-- `FULL = (OCC == CAP)` (10_state.md R34). -/
def Regs.full (r : Regs p) : Bool := decide (r.occ = r.cap)

/-- The status output `CFG_O = CFG` (10_state.md R36). -/
def State.cfgO (s : State) : Bool := s.regs.cfg

/-- The status output `EMPTY_O = CFG AND EMPTY` (10_state.md R36). -/
def State.emptyO (s : State) : Bool := s.regs.cfg && s.regs.empty

/-- The status output `FULL_O = CFG AND FULL` (10_state.md R36). -/
def State.fullO (s : State) : Bool := s.regs.cfg && s.regs.full

/-- `req_ready` between two commands: no command is in flight then, so only an asserted `rst` holds it at 0
(30_encoding.md R70, 70_reset_and_hazards.md R170). -/
def State.reqReady (s : State) : Bool := !s.rst

/-- `rsp_valid` between two commands (30_encoding.md R76); an asserted `rst` holds it at 0 (70_reset_and_hazards.md R170). -/
def State.rspValid (s : State) : Bool := s.rsp.isSome && !s.rst

/-- A boolean result: 1 for true and 0 for false (42_queries.md). -/
def boolVal (w : Nat) (b : Bool) : BitVec w := if b then 1 else 0

/-- The power-of-two test `C != 0 and ((C -w 1) & C) == 0` (40_configuration.md R90, R94). -/
def powerOfTwo {w : Nat} (c : BitVec w) : Bool := decide (c ≠ 0) && decide ((c - 1) &&& c = 0)

/-- The five conditions of INIT (40_configuration.md R90). -/
def initValid (a : BitVec p.addrW) (b c : BitVec p.ctrW) : Bool :=
  decide (a ≠ 0) && decide (1 ≤ b.toNat) && powerOfTwo c && decide (a.toNat + c.toNat * b.toNat ≤ 2 ^ p.addrW)

end Sys2Proof.Machine
end

