-- ==== Sys2Proof/Machine/Operands.lean ====
section
/-! DEFINITION. The operands of the commands as the meanings take them (30_encoding.md R74) and the shape of the write data
(R77). Which fields an opcode uses (R73) is said once, by the decoder. -/

namespace Sys2Proof.Machine

/-- Operand A as it goes to the address-wide register BASE (30_encoding.md R70, R74). An operand of a well-formed command
fits (DESIGN CHOICE, log 9). -/
def State.addrOperand (s : State) (v : Nat) : BitVec s.params.addrW := BitVec.ofNat s.params.addrW v

/-- Operand B or C as it goes to a counter-wide register (30_encoding.md R70, R74). An operand of a well-formed command
fits (DESIGN CHOICE, log 9). -/
def State.countOperand (s : State) (v : Nat) : BitVec s.params.ctrW := BitVec.ofNat s.params.ctrW v

/-- Write data of exactly `n` elements, each exactly `esize` bytes long (30_encoding.md R77). -/
def dataShaped (esize n : Nat) (data : List Elem) : Bool :=
  decide (data.length = n) && data.all fun e => decide (e.length = esize)

/-- The write data of the current command has the shape that 30_encoding.md R77 asks for with the present ESIZE. -/
def State.dataOk (s : State) (n : Nat) (data : List Elem) : Bool := dataShaped s.regs.esize.toNat n data

end Sys2Proof.Machine
end

