-- ==== Sys2Proof/Machine/Bulk.lean ====
section
/-! DEFINITION. The multi-element commands ENQN and DEQN (43_bulk.md). -/

namespace Sys2Proof.Machine

/-- `ENQN n, e0, ...` (43_bulk.md R130 to R134): the first `min(n, SPACE)` elements are stored, the surplus is discarded,
and the count goes to VAL. A full buffer is no failure (R131). -/
def execEnqn (n : Nat) (data : List Elem) (s : State) : Result :=
  s.useBuffer <|
    if s.dataOk n data = false then .refused .malformedRequest
    else s.enqueue (data.take (min n s.regs.space.toNat)) (min n s.regs.space.toNat)

/-- `DEQN n` (43_bulk.md R135, R134): the `min(n, OCC)` oldest elements are returned, oldest first, and the count goes to
VAL. An empty buffer is no failure (R131). -/
def execDeqn (n : Nat) (s : State) : Result :=
  s.useBuffer <| s.dequeue (min n s.regs.occ.toNat) (min n s.regs.occ.toNat)

end Sys2Proof.Machine
end

