-- ==== Sys2Proof/Machine/Configuration.lean ====
section
/-! DEFINITION. The configuration command INIT (40_configuration.md). -/

namespace Sys2Proof.Machine

/-- `INIT base, esize, num` (40_configuration.md R90 to R97). It runs in any state; on success the six registers take their
values together (R91), and otherwise nothing changes (R92). It never touches storage (20_memory.md R59). The buffer it sets
up is a new one, whose storage has not been released since (DEDUCED, log 10). -/
def execInit (base esize num : Nat) (s : State) : Result :=
  if initValid (s.addrOperand base) (s.countOperand esize) (s.countOperand num) then
    .next { s with
      regs := { base := s.addrOperand base, esize := s.countOperand esize, cap := s.countOperand num,
                head := 0, tail := 0, cfg := true }
      rsp := some { ok := true, val := 0, r := [] }
      stale := false }
  else .next s.fail

end Sys2Proof.Machine
end

