-- ==== Sys2Proof/Machine/Query.lean ====
section
/-! DEFINITION. The query commands ISEMPTY, ISFULL and OCC (42_queries.md). -/

namespace Sys2Proof.Machine

/-- `ISEMPTY` (42_queries.md R120). -/
def execIsempty (s : State) : Result :=
  s.useBuffer <| .next (s.respond true (boolVal _ s.regs.empty) [])

/-- `ISFULL` (42_queries.md R122). -/
def execIsfull (s : State) : Result :=
  s.useBuffer <| .next (s.respond true (boolVal _ s.regs.full) [])

/-- `OCC` (42_queries.md R124). -/
def execOcc (s : State) : Result :=
  s.useBuffer <| .next (s.respond true s.regs.occ [])

end Sys2Proof.Machine
end

