-- ==== Sys2Proof/Machine/Reserved.lean ====
section
/-! DEFINITION. The reserved encodings (30_encoding.md R78). -/

namespace Sys2Proof.Machine

/-- A reserved encoding is `FAIL` whatever its byte and whatever CFG (30_encoding.md R78). -/
def execReserved (_cmd : BitVec 8) (s : State) : Result := .next s.fail

end Sys2Proof.Machine
end

