-- ==== Sys2Proof/Machine/SingleElement.lean ====
section
/-! DEFINITION. The single-element commands ENQ, DEQ and PEEK (41_single_element.md). -/

namespace Sys2Proof.Machine

/-- `ENQ e` (41_single_element.md R100 to R103). The checks come in the order of 60_exceptions.md R153: CFG, then the
command's own; a malformed request is refused (30_encoding.md R77) before the full check (DEDUCED, log 13). -/
def execEnq (data : List Elem) (s : State) : Result :=
  s.useBuffer <|
    if s.dataOk 1 data = false then .refused .malformedRequest
    else if s.regs.full then .next s.fail
    else s.enqueue data 0

/-- `DEQ` (41_single_element.md R104, R105). -/
def execDeq (s : State) : Result :=
  s.useBuffer <|
    if s.regs.empty then .next s.fail
    else s.dequeue 1 0

/-- `PEEK idx` (41_single_element.md R108, R109): the element at a logical position, with nothing changed. -/
def execPeek (idx : Nat) (s : State) : Result :=
  s.useBuffer <|
    if s.regs.empty || decide (s.regs.occ.toNat ≤ idx) then .next s.fail
    else s.access [(s.regs.deqAddr idx, s.regs.esize.toNat)] (s.respond true 0 [s.regs.elemAt s.mem idx])

end Sys2Proof.Machine
end

