-- ==== Sys2Proof/Machine/Dispatch.lean ====
section
/-! DEFINITION. One arm for each command. -/

namespace Sys2Proof.Machine

def exec (i : Instr) (s : State) : Host.Outcome State Fault Refusal :=
  match i with
  | .init base esize num => Sys2Proof.Machine.execInit base esize num s
  | .enq data => Sys2Proof.Machine.execEnq data s
  | .deq => Sys2Proof.Machine.execDeq s
  | .peek idx => Sys2Proof.Machine.execPeek idx s
  | .isempty => Sys2Proof.Machine.execIsempty s
  | .isfull => Sys2Proof.Machine.execIsfull s
  | .occ => Sys2Proof.Machine.execOcc s
  | .enqn n data => Sys2Proof.Machine.execEnqn n data s
  | .deqn n => Sys2Proof.Machine.execDeqn n s
  | .reserved cmd => Sys2Proof.Machine.execReserved cmd s

end Sys2Proof.Machine
end

