-- ==== Sys2Proof/Machine/Environment.lean ====
section
/-! DEFINITION. What the outside world does to the machine: the request port, the reset input (70_reset_and_hazards.md R170),
and the storage accesses of other agents (20_memory.md R62), with the free draws of 93_implementation_defined.md U4 and U8. -/

namespace Sys2Proof.Machine

/-! ### Free draws -/

/-- Each store in turn happens or not, as a free draw decides; draw number `n` decides the first. Every byte so ends as its
old value or as one of the values stored to it. -/
def drawCells : Memory → Nat → List Host.Cell → Memory
  | m, _, [] => m
  | m, n, c :: cs => drawCells (if Config.freeBit n then m.write c.1 c.2 else m) (n + 1) cs

/-- The byte a racing read of address `a` returns while `cells` are being stored: the old value or a new one. -/
def drawRead (m : Memory) (cells : List Host.Cell) (n a : Nat) : Byte :=
  (drawCells m n (cells.filter fun c => decide (c.1 = a))).read a

/-- Racing reads of several addresses, each byte drawn by itself (93_implementation_defined.md U4). -/
def drawReads (m : Memory) (cells : List Host.Cell) : Nat → List Nat → List Byte
  | _, [] => []
  | n, a :: as => drawRead m cells n a :: drawReads m cells (n + cells.length) as

/-! ### The accesses of a command and of other agents -/

/-- The stores of a command (20_memory.md R60): those of a successful ENQ and of ENQN, none otherwise. -/
def storedCells (i : Instr) (s : State) : List Host.Cell :=
  match i with
  | .init _ _ _ => []
  | .enq data => if s.regs.cfg && !s.regs.full then s.regs.enqCells 0 data else []
  | .deq => []
  | .peek _ => []
  | .isempty => []
  | .isfull => []
  | .occ => []
  | .enqn n data => if s.regs.cfg then s.regs.enqCells 0 (data.take (min n s.regs.space.toNat)) else []
  | .deqn _ => []
  | .reserved _ => []

/-- Bytes that other agents write, as stores. -/
def foreignCells {p : Params} (cells : List (BitVec p.addrW × Byte)) : List Host.Cell :=
  cells.map fun c => (c.1.toNat, c.2)

/-- Some store of `cells` goes to the address. -/
def touches (cells : List Host.Cell) (a : Nat) : Bool := cells.any fun c => decide (c.1 = a)

/-- The stores of `cells` to addresses that `others` do not store to. -/
def apart (cells others : List Host.Cell) : List Host.Cell := cells.filter fun c => !touches others c.1

/-- The stores of `cells` to addresses that `others` store to as well. -/
def clashing (cells others : List Host.Cell) : List Host.Cell := cells.filter fun c => touches others c.1

/-! ### Reset -/

/-- `rst` becomes asserted: `req_ready = 0` and `rsp_valid = 0`, and the registers go to their reset values; storage stays
(70_reset_and_hazards.md R170, 10_state.md R42). That the registers change already now is a DESIGN CHOICE, log 7. -/
abbrev State.assertReset (s : State) : State := { s with regs := Regs.reset s.params, rsp := none, rst := true }

/-- `rst` is deasserted: every register holds its reset value (70_reset_and_hazards.md R170). -/
abbrev State.releaseReset (s : State) : State := { s with regs := Regs.reset s.params, rsp := none, rst := false }

/-- The reset input takes a level; deasserting an input that is not asserted changes nothing. -/
def State.driveReset (s : State) (level : Bool) : State :=
  if level then s.assertReset else if s.rst then s.releaseReset else s

/-! ### Commands on the request port -/

/-- The stores of other agents alone, with what their reads return; the block has no part in it, and the
condition of the storage plays none (DESIGN CHOICE, log 16). -/
def State.foreignAlone (s : State) (other : Foreign s.params) : State :=
  { s with
    mem := s.mem.writeCells (foreignCells other.writes)
    foreignData := drawReads s.mem (foreignCells other.writes) s.draws (other.reads.map BitVec.toNat)
    draws := s.draws + (foreignCells other.writes).length * other.reads.length }

/-- A command while other agents access storage (20_memory.md R62, 93_implementation_defined.md U4). Each byte that RBUF reads
is old or new, so the command runs over storage in which each foreign store has happened or not. Afterwards a byte that only
one side stored holds what that side stored, a byte that both stored is drawn, and the other agents' reads are drawn
(DEDUCED, log 11). -/
def raceCommand (i : Instr) (s : State) (other : Foreign s.params) : Result :=
  let own := storedCells i s
  let alien := foreignCells other.writes
  match exec i (s.withMem (drawCells s.mem s.draws alien)) with
  | .next t =>
    .next { t with
      mem := drawCells (s.mem.writeCells (apart own alien ++ apart alien own)) (s.draws + alien.length)
        (clashing own alien ++ clashing alien own)
      foreignData := drawReads s.mem (own ++ alien) (s.draws + 2 * alien.length + own.length)
        (other.reads.map BitVec.toNat)
      draws := s.draws + 2 * alien.length + own.length + (own ++ alien).length * other.reads.length }
  | .fault f => .fault f
  | .refused r => .refused r

/-- A command that is in flight when `rst` is asserted (70_reset_and_hazards.md R170, 93_implementation_defined.md U8): it is
abandoned, gets no response, and each byte its stores target holds its old value or the new one (log 11). -/
def abandonCommand (i : Instr) (s : State) (other : Foreign s.params) : Result :=
  let own := storedCells i s
  let alien := foreignCells other.writes
  match exec i s with
  | .next _ =>
    .next { s.assertReset with
      mem := drawCells (s.mem.writeCells (apart alien own)) s.draws (own ++ clashing alien own)
      foreignData := drawReads s.mem (own ++ alien) (s.draws + own.length + alien.length)
        (other.reads.map BitVec.toNat)
      draws := s.draws + own.length + alien.length + (own ++ alien).length * other.reads.length }
  | .fault f => .fault f
  | .refused r => .refused r

/-- What one input does. A request that is offered while `rst` is asserted is not transferred, because `req_ready = 0`
(30_encoding.md R70, 70_reset_and_hazards.md R170; DESIGN CHOICE, log 7). Another agent's accesses go on as on backed storage
while the storage is released or answers with an error: the spec speaks of the block's commands only (DESIGN CHOICE,
log 16). A change of the storage's condition leaves its bytes alone, also when it was released and is backed again: the spec
does not say what it holds then (DESIGN CHOICE, log 17). -/
def takeInput (s : State) (x : Input s.params) : Result :=
  match x with
  | .command req => if s.reqReady then exec (decode req) s else .next s
  | .racingCommand req other =>
    if s.reqReady then raceCommand (decode req) s other else .next (s.foreignAlone other)
  | .abandonedCommand req other =>
    if s.reqReady then abandonCommand (decode req) s other else .next (s.foreignAlone other)
  | .rst level => .next (s.driveReset level)
  | .foreignWrite cells => .next (s.withMem (s.mem.writeCells (foreignCells cells)))
  | .foreignRead addrs => .next { s with foreignData := addrs.map fun a => s.mem.read a.toNat }
  | .storage condition => .next (s.setBacking condition)

/-- The next input, if there is one, is taken; with none the block waits on the request port (70_reset_and_hazards.md
R171). -/
def takeNext (s : State) : Result :=
  match s.inputs with
  | [] => .next s
  | x :: rest => takeInput (s.withInputs rest) x

end Sys2Proof.Machine
end

