-- ==== Sys2Proof/Machine/Step.lean ====
section
/-! DEFINITION. One step of the machine, and how one table word comes to be its next command. -/

namespace Sys2Proof.Machine

/-- One step: the machine takes the next input. Every state a run starts from satisfies INV (10_state.md R37); a state that
does not is refused (93_implementation_defined.md U7). -/
def step (s : State) : Host.Outcome State Fault Refusal :=
  if s.regs.Inv then takeNext s else .refused .stateOutsideInvariant

/-- The state in which the request of one table word is what the requester offers next, with `rst` deasserted so that the
block accepts it (log 2). -/
def State.withFetchWord (s : State) (nbits w : Nat) : State :=
  { s with rst := false, inputs := .command (wordRequest s.params nbits w) :: s.inputs }

end Sys2Proof.Machine
end

