-- ==== Sys2Proof/Safety.lean ====
section
/-! DEFINITION. What counts as a good state and a usable buffer, in the terms the claims use; the queue a state stands for;
and runs of several commands. -/

namespace Sys2Proof

/-! ### Kinds of commands -/

/-- The write data of a command has the shape 30_encoding.md R77 asks for. -/
def Instr.shaped (esize : Nat) : Instr → Bool
  | .enq data => Machine.dataShaped esize 1 data
  | .enqn n data => Machine.dataShaped esize n data
  | .init _ _ _ | .deq | .peek _ | .isempty | .isfull | .occ | .deqn _ | .reserved _ => true

/-- The command is an INIT. -/
def Instr.isInit : Instr → Bool
  | .init _ _ _ => true
  | .enq _ | .deq | .peek _ | .isempty | .isfull | .occ | .enqn _ _ | .deqn _ | .reserved _ => false

/-- The command never changes a register or storage: PEEK, the queries and the reserved encodings (41_single_element.md
R109, 42_queries.md, 30_encoding.md R78). -/
def Instr.readOnly : Instr → Bool
  | .peek _ | .isempty | .isfull | .occ | .reserved _ => true
  | .init _ _ _ | .enq _ | .deq | .enqn _ _ | .deqn _ => false

/-- The command removes elements, and its response returns them: DEQ and DEQN (10_state.md R21). -/
def Instr.removes : Instr → Bool
  | .deq | .deqn _ => true
  | .init _ _ _ | .enq _ | .peek _ | .isempty | .isfull | .occ | .enqn _ _ | .reserved _ => false

/-- The command uses the buffer that a successful INIT has set up: every opcode but INIT itself (00_scope.md R19). -/
def Instr.usesBuffer : Instr → Bool
  | .init _ _ _ | .reserved _ => false
  | .enq _ | .deq | .peek _ | .isempty | .isfull | .occ | .enqn _ _ | .deqn _ => true

end Sys2Proof

namespace Sys2Proof.Machine

/-- A good state: INV holds (10_state.md R37), and storage is in its canonical form and inside its address space
(20_memory.md R50). -/
abbrev State.Good (s : State) : Prop := s.regs.Inv ∧ s.mem.wf ∧ s.mem.inSpace s.params.addrW

/-- A configured buffer whose registers satisfy INV and whose storage is backed and has not been released since INIT: what
70_reset_and_hazards.md R172 asks for before the block's queue rules hold. -/
abbrev State.Usable (s : State) : Prop :=
  s.regs.Inv ∧ s.regs.cfg = true ∧ s.backing = .backed ∧ s.stale = false

/-- The response of a result, its numbers unsigned integers: `OK`, `VAL`, `R`. -/
def responseOf : Result → Option (Bool × Nat × List Elem)
  | .next t => t.rsp.map fun x => (x.ok, x.val.toNat, x.r)
  | .fault _ => none
  | .refused _ => none

/-! ### The queue a state stands for -/

/-- The stored elements of a state, oldest first (00_scope.md R17: logical positions). -/
def State.queue (s : State) : List Elem := s.regs.elemsFrom s.mem 0 s.regs.occ.toNat

/-- A bounded first-in first-out queue of `cap` elements, with no counters, no slots and no storage: what each command but
INIT does to its contents, and the response. It is the yardstick of the refinement claim, written from the prose of
41_single_element.md, 42_queries.md and 43_bulk.md. -/
def queueStep (cap : Nat) (q : List Elem) : Instr → List Elem × (Bool × Nat × List Elem)
  | .init _ _ _ => (q, (false, 0, []))
  | .enq data => if q.length = cap then (q, (false, 0, [])) else (q ++ data, (true, 0, []))
  | .deq => match q with
    | [] => ([], (false, 0, []))
    | e :: rest => (rest, (true, 0, [e]))
  | .peek idx => match q[idx]? with
    | none => (q, (false, 0, []))
    | some e => (q, (true, 0, [e]))
  | .isempty => (q, (true, if q = [] then 1 else 0, []))
  | .isfull => (q, (true, if q.length = cap then 1 else 0, []))
  | .occ => (q, (true, q.length, []))
  | .enqn n data => (q ++ data.take (min n (cap - q.length)), (true, min n (cap - q.length), []))
  | .deqn n => (q.drop n, (true, min n q.length, q.take n))
  | .reserved _ => (q, (false, 0, []))

/-! ### Several commands -/

/-- Run commands one after the other, each in the state the one before left, stopping at the first fault or refusal. -/
def runCommands : List Instr → State → Result
  | [], s => .next s
  | i :: is, s =>
    match exec i s with
    | .next t => runCommands is t
    | .fault f => .fault f
    | .refused r => .refused r

/-- Take `n` steps, stopping at the first fault or refusal. -/
def runSteps : Nat → State → Result
  | 0, s => .next s
  | n + 1, s =>
    match step s with
    | .next t => runSteps n t
    | .fault f => .fault f
    | .refused r => .refused r

/-- How many commands of a run respond with `OK = 1`. -/
def okCount : List Instr → State → Nat
  | [], _ => 0
  | i :: is, s =>
    match exec i s with
    | .next t => (if (responseOf (.next t)).any (·.1) then 1 else 0) + okCount is t
    | .fault _ => 0
    | .refused _ => 0

/-- The elements that a run returns: the `R` lists of its responses, in order. -/
def returned : List Instr → State → List Elem
  | [], _ => []
  | i :: is, s =>
    match exec i s with
    | .next t => ((responseOf (.next t)).map (·.2.2)).getD [] ++ returned is t
    | .fault _ => []
    | .refused _ => []

/-- How many elements a command stores: one for a successful ENQ, `k` for ENQN (10_state.md R41). -/
def elemsStored (i : Instr) (s : State) : Nat :=
  match i with
  | .enq _ => if s.regs.cfg && !s.regs.full then 1 else 0
  | .enqn n _ => if s.regs.cfg then min n s.regs.space.toNat else 0
  | .init _ _ _ | .deq | .peek _ | .isempty | .isfull | .occ | .deqn _ | .reserved _ => 0

/-- The elements a command stores, in order: those of a successful ENQ, the first `k` of ENQN (41_single_element.md R106). -/
def storedElems (i : Instr) (s : State) : List Elem :=
  match i with
  | .enq data => if s.regs.cfg && !s.regs.full then data else []
  | .enqn n data => if s.regs.cfg then data.take (min n s.regs.space.toNat) else []
  | .init _ _ _ | .deq | .peek _ | .isempty | .isfull | .occ | .deqn _ | .reserved _ => []

/-- The elements a run stores, in order. -/
def enqueuedBy : List Instr → State → List Elem
  | [], _ => []
  | i :: is, s =>
    storedElems i s ++ match exec i s with
      | .next t => enqueuedBy is t
      | .fault _ => []
      | .refused _ => []

/-- How many elements a command removes: one for a successful DEQ, `k` for DEQN (10_state.md R41). -/
def elemsRemoved (i : Instr) (s : State) : Nat :=
  match i with
  | .deq => if s.regs.cfg && !s.regs.empty then 1 else 0
  | .deqn n => if s.regs.cfg then min n s.regs.occ.toNat else 0
  | .init _ _ _ | .enq _ | .peek _ | .isempty | .isfull | .occ | .enqn _ _ | .reserved _ => 0

/-- The elements that the DEQs and DEQNs of a run remove, in order: the `R` lists of their responses. -/
def dequeuedBy : List Instr → State → List Elem
  | [], _ => []
  | i :: is, s =>
    match exec i s with
    | .next t => (if i.removes then ((responseOf (.next t)).map (·.2.2)).getD [] else []) ++ dequeuedBy is t
    | .fault _ => []
    | .refused _ => []

/-- The command responds with `OK = 1`. -/
def succeeds (i : Instr) (s : State) : Bool := (responseOf (exec i s)).any (·.1)

/-- The command is a mutating one (41_single_element.md R111): a successful ENQ, DEQ or INIT, or an ENQN or DEQN that moves
at least one element. -/
def mutates (i : Instr) (s : State) : Bool :=
  match i with
  | .init _ _ _ | .enq _ | .deq => succeeds i s
  | .enqn _ _ => decide (1 ≤ elemsStored i s)
  | .deqn _ => decide (1 ≤ elemsRemoved i s)
  | .peek _ | .isempty | .isfull | .occ | .reserved _ => false

/-- No command of a run is a mutating one, each in the state it runs in. -/
def noneMutates : List Instr → State → Bool
  | [], _ => true
  | i :: is, s =>
    !mutates i s && match exec i s with
      | .next t => noneMutates is t
      | .fault _ => true
      | .refused _ => true

/-- A measure of commands summed over a run. -/
def runSum (f : Instr → State → Nat) : List Instr → State → Nat
  | [], _ => 0
  | i :: is, s =>
    f i s + match exec i s with
      | .next t => runSum f is t
      | .fault _ => 0
      | .refused _ => 0

end Sys2Proof.Machine
end

