-- ==== Sys2Proof/WellFormed.lean ====
section
/-! DEFINITION. Which commands a request can carry: every operand fits its field (30_encoding.md R70, R74), and a reserved
command byte is a reserved one (R78). The shape of the write data depends on the machine's ESIZE and CFG (R77), so it is
checked by the machine (Machine/Operands.lean). -/

namespace Sys2Proof

/-- The command is one that a request port of these widths can carry. -/
def Instr.wellFormed (p : Params) : Instr → Bool
  | .init base esize num => decide (base < 2 ^ p.addrW) && decide (esize < 2 ^ p.ctrW) && decide (num < 2 ^ p.ctrW)
  | .enq _ => true
  | .deq => true
  | .peek idx => decide (idx < 2 ^ p.ctrW)
  | .isempty => true
  | .isfull => true
  | .occ => true
  | .enqn n _ => decide (n < 2 ^ p.ctrW)
  | .deqn n => decide (n < 2 ^ p.ctrW)
  | .reserved cmd => (decodeCmd cmd).isNone

end Sys2Proof
end

