-- ==== Sys2Proof/Certificates/Slice0/Obligations.lean ====
section
/-! DEFINITION. The statements for the provers, in the order of the spec's files. Every statement is for every counter width
and address width, since the parameters stand in the state. -/

open Sys2Proof Sys2Proof.Machine

/-! ### Encoding (30_encoding.md) -/

/-- 30_encoding.md R75, R73: what each command byte decodes to, with the operands of the operand table. -/
def Obligations.OpcodeMapDecodes : Prop :=
  ∀ (p : Params) (q : Request p),
    (q.cmd = 0x01 → decode q = .init q.a.toNat q.b.toNat q.c.toNat) ∧
    (q.cmd = 0x02 → decode q = .enq q.d) ∧
    (q.cmd = 0x03 → decode q = .deq) ∧
    (q.cmd = 0x04 → decode q = .peek q.b.toNat) ∧
    (q.cmd = 0x05 → decode q = .isempty) ∧
    (q.cmd = 0x06 → decode q = .isfull) ∧
    (q.cmd = 0x07 → decode q = .occ) ∧
    (q.cmd = 0x08 → decode q = .enqn q.b.toNat q.d) ∧
    (q.cmd = 0x09 → decode q = .deqn q.b.toNat) ∧
    (q.cmd = 0x00 ∨ (0x0A ≤ q.cmd.toNat ∧ q.cmd.toNat ≤ 0x0F) → decode q = .reserved q.cmd)

/-- 30_encoding.md, sections 1 and 2: decoding the request of a well-formed command gives the command back, with every
operand at every value its field admits. -/
def Obligations.DecodeEncodeRoundTrip : Prop :=
  ∀ (p : Params) (i : Instr), i.wellFormed p = true → decode (encode p i) = i

/-- 30_encoding.md R80 (derived there from R72, R75 and R78): each command byte selects exactly one of the nine opcode rows,
which happens exactly for 0x01 to 0x09, or the reserved row; and what is decoded is a command that the port can carry. -/
def Obligations.DecoderIsTotal : Prop :=
  ∀ (p : Params) (q : Request p),
    (decode q).wellFormed p = true ∧
    ((∃ o, (decode q).opcode = some o ∧ o.cmd = q.cmd) ↔ 0x01 ≤ q.cmd.toNat ∧ q.cmd.toNat ≤ 0x09) ∧
    (decode q = .reserved q.cmd ↔ ¬ (0x01 ≤ q.cmd.toNat ∧ q.cmd.toNat ≤ 0x09))

/-- 30_encoding.md R73: two requests with the same command byte that agree on the operands the operand table gives the opcode
have the same effect on state, storage and response. -/
def Obligations.IgnoredOperandsHaveNoEffect : Prop :=
  ∀ (s : State) (q q' : Request s.params), q.cmd = q'.cmd →
    (q.cmd = 0x01 → q.a = q'.a ∧ q.b = q'.b ∧ q.c = q'.c) →
    (q.cmd = 0x02 → q.d = q'.d) →
    (q.cmd = 0x04 → q.b = q'.b) →
    (q.cmd = 0x08 → q.b = q'.b ∧ q.d = q'.d) →
    (q.cmd = 0x09 → q.b = q'.b) →
    exec (decode q) s = exec (decode q') s

/-- 30_encoding.md R77 with 93_implementation_defined.md U6: a configured buffer whose storage was not released refuses a
malformed ENQ or ENQN; while CFG = 0, and for a reserved encoding, the write data is ignored whatever its shape, because the
command fails before it is used. That a malformed ENQ is refused on a full buffer too, before the buffer is looked at, is the
model's reading (DEDUCED, log 13). A buffer whose storage was released is refused for that
(`StorageConditionStopsAccesses`). -/
def Obligations.MalformedRequestIsRefused : Prop :=
  ∀ (s : State) (q : Request s.params),
    (s.regs.cfg = true → s.backing ≠ .released → s.stale = false → q.cmd = 0x02 →
      ¬ (q.d.length = 1 ∧ ∀ e ∈ q.d, e.length = s.regs.esize.toNat) →
      exec (decode q) s = .refused .malformedRequest) ∧
    (s.regs.cfg = true → s.backing ≠ .released → s.stale = false → q.cmd = 0x08 →
      ¬ (q.d.length = q.b.toNat ∧ ∀ e ∈ q.d, e.length = s.regs.esize.toNat) →
      exec (decode q) s = .refused .malformedRequest) ∧
    (s.regs.cfg = false ∧ (q.cmd = 0x02 ∨ q.cmd = 0x08) ∨ q.cmd.toNat < 1 ∨ 9 < q.cmd.toNat →
      exec (decode q) s = .next { s with rsp := some ⟨false, 0, []⟩ })

/-- 30_encoding.md R78: a command byte with `CMD[7:4] != 0` or with `OP` 0x0 or 0xA to 0xF is FAIL, whatever the state; it is
247 of the 256 values, 240 of them with `RSV != 0`. -/
def Obligations.ReservedEncodingFails : Prop :=
  (∀ (s : State) (q : Request s.params),
    q.cmd.extractLsb' 4 4 ≠ 0 ∨ q.cmd.extractLsb' 0 4 = 0 ∨ 0xA ≤ (q.cmd.extractLsb' 0 4).toNat →
    exec (decode q) s = .next { s with rsp := some ⟨false, 0, []⟩ }) ∧
  ((List.range 256).filter fun n => (decodeCmd (BitVec.ofNat 8 n)).isNone).length = 247 ∧
  ((List.range 256).filter fun n =>
    (decodeCmd (BitVec.ofNat 8 n)).isNone && decide ((BitVec.ofNat 8 n).extractLsb' 4 4 ≠ 0)).length = 240

/-! ### The step, reset and the invariant (00_scope.md, 10_state.md, 70_reset_and_hazards.md) -/

/-- 00_scope.md R15, 30_encoding.md R70: when a request is what the requester offers next and `rst` is not asserted, a step is
the decoded command's one atomic step, with the request taken. -/
def Obligations.StepRunsDecodedCommand : Prop :=
  ∀ (s : State) (q : Request s.params) (rest : List (Input s.params)),
    s.regs.Inv → s.rst = false → s.inputs = .command q :: rest →
    step s = exec (decode q) (s.withInputs rest)

/-- 30_encoding.md R71: the steps over a stream of requests are the decoded commands one after the other, each in the state
the one before left, in acceptance order; what follows the stream stays on offer. A fault or a refusal ends both alike. -/
def Obligations.StepsRunTheCommandStream : Prop :=
  ∀ (s : State) (qs : List (Request s.params)) (rest : List (Input s.params)),
    s.regs.Inv → s.rst = false → s.inputs = qs.map Input.command ++ rest →
    runSteps qs.length s = runCommands (qs.map decode) (s.withInputs rest)

/-- 10_state.md R42: the value of every register and of the three status outputs after power-on and after an external reset
(`rst` asserted, then deasserted), and that reset does not touch storage. -/
def Obligations.ResetValues : Prop :=
  (∀ p : Params, (State.resetAt p).regs.value .head = 0 ∧ (State.resetAt p).regs.value .tail = 0 ∧
    (State.resetAt p).regs.value .base = 0 ∧ (State.resetAt p).regs.value .esize = 0 ∧
    (State.resetAt p).regs.value .cap = 0 ∧ (State.resetAt p).regs.value .cfg = 0 ∧
    (State.resetAt p).cfgO = false ∧ (State.resetAt p).emptyO = false ∧ (State.resetAt p).fullO = false) ∧
  ∀ s : State, (∀ r, ((s.driveReset true).driveReset false).regs.value r = 0) ∧
    ((s.driveReset true).driveReset false).cfgO = false ∧ ((s.driveReset true).driveReset false).emptyO = false ∧
    ((s.driveReset true).driveReset false).fullO = false ∧ (s.driveReset true).mem = s.mem ∧
    ((s.driveReset true).driveReset false).mem = s.mem

/-- 70_reset_and_hazards.md R170. While `rst` is asserted, `req_ready = 0` and `rsp_valid = 0`. When it is deasserted, every
register holds its reset value and the status outputs are 0. Asserting it does the same to the registers (the model's choice,
log 7), and reset never writes storage. A command in flight when it is asserted gets no response, and each byte its stores
target holds its old value or the new one. -/
def Obligations.ResetInput : Prop :=
  (∀ s : State, s.rst = true → s.reqReady = false ∧ s.rspValid = false) ∧
  (∀ (s : State) (rest : List (Input s.params)), s.regs.Inv → s.inputs = .rst true :: rest →
    step s = .next { s with inputs := rest, regs := Regs.reset s.params, rsp := none, rst := true }) ∧
  (∀ (s : State) (rest : List (Input s.params)), s.regs.Inv → s.rst = true → s.inputs = .rst false :: rest →
    step s = .next { s with inputs := rest, regs := Regs.reset s.params, rsp := none, rst := false }) ∧
  (∀ (s : State) (q : Request s.params) (rest : List (Input s.params)) (u : State), s.regs.Inv → s.rst = false →
    s.inputs = .abandonedCommand q ⟨[], []⟩ :: rest → exec (decode q) (s.withInputs rest) = .next u →
    ∃ m n, step s = .next { s with
        inputs := rest, regs := Regs.reset s.params, rsp := none, rst := true, mem := m, foreignData := [], draws := n } ∧
      (∀ a, m.read a = s.mem.read a ∨ (a, m.read a) ∈ storedCells (decode q) s)) ∧
  (∀ s : State, s.regs = Regs.reset s.params →
    s.cfgO = false ∧ s.emptyO = false ∧ s.fullO = false)

/-- 10_state.md R37: the state right after reset is a good one, at every width. -/
def Obligations.GoodAtReset : Prop := ∀ p : Params, (State.resetAt p).Good

/-- 10_state.md section 5 (INV, derived there "by induction on commands") and the storage form: every step, whatever the outside
world does, leads from a good state to a good state of the same chip. -/
def Obligations.StepKeepsGood : Prop :=
  ∀ s t : State, s.Good → step s = .next t → t.Good ∧ t.params = s.params

/-- 93_implementation_defined.md U7: a state that violates INV is refused by name. -/
def Obligations.StateOutsideInvariantIsRefused : Prop :=
  ∀ s : State, ¬ s.regs.Inv → step s = .refused .stateOutsideInvariant

/-- 10_state.md section 2 and the register map: no step changes BASE, ESIZE, CAP or CFG unless it takes reset or a valid INIT;
nor HEAD unless also ENQ or ENQN; nor TAIL unless also DEQ or DEQN. -/
def Obligations.RegistersWrittenOnlyByTheMap : Prop :=
  ∀ (s t : State) (x : Input s.params) (rest : List (Input s.params)), s.inputs = x :: rest → step s = .next t →
    (∃ b, x = .rst b) ∨ (∃ q o, x = .abandonedCommand q o) ∨
    (∃ q : Request s.params, ((∃ o, x = .racingCommand q o) ∨ x = .command q) ∧
      ((q.cmd = 0x01 ∧ initValid q.a q.b q.c = true) ∨
        ((∀ r, r ≠ .head → r ≠ .tail → t.regs.value r = s.regs.value r) ∧
          (t.regs.value .head = s.regs.value .head ∨ q.cmd = 0x02 ∨ q.cmd = 0x08) ∧
          (t.regs.value .tail = s.regs.value .tail ∨ q.cmd = 0x03 ∨ q.cmd = 0x09)))) ∨
    ∀ r, t.regs.value r = s.regs.value r

/-- 10_state.md section 3 (derived there from R30 and R31): masking a wrapped counter gives the slot of the unbounded count, and
the wrapped difference of two counts at most CAP apart is their true difference. -/
def Obligations.WraparoundLaw : Prop :=
  ∀ (p : Params) (r : Regs p), r.Inv → r.cfg = true → ∀ c n : Nat,
    ((c + n) % 2 ^ p.ctrW) &&& (r.cap.toNat - 1) = (c + n) % r.cap.toNat ∧
    (r.slot (BitVec.ofNat p.ctrW c + BitVec.ofNat p.ctrW n)).toNat
      = ((r.slot (BitVec.ofNat p.ctrW c)).toNat + n) % r.cap.toNat ∧
    (n ≤ r.cap.toNat → (BitVec.ofNat p.ctrW (c + n) - BitVec.ofNat p.ctrW c).toNat = n)

/-- 10_state.md section 5 (derived there from R24, R33, R34, R37): full and empty are told apart, because
`CAP <= 2^(W-1) < 2^W`, and the two outputs are never both 1. -/
def Obligations.EmptyAndFullAreExclusive : Prop :=
  ∀ s : State, s.regs.Inv → s.regs.cfg = true →
    s.regs.cap.toNat ≤ 2 ^ (s.params.ctrW - 1) ∧ ¬ (s.emptyO = true ∧ s.fullO = true) ∧
    (s.emptyO = true ↔ s.regs.head = s.regs.tail) ∧
    (s.fullO = true ↔ s.regs.head = s.regs.tail + s.regs.cap)

/-- 10_state.md R36: the three status outputs, and that EMPTY_O and FULL_O are 0 while CFG is 0. -/
def Obligations.StatusOutputsFollowTheRegisters : Prop :=
  ∀ s : State,
    (s.cfgO = true ↔ s.regs.value .cfg = 1) ∧
    (s.emptyO = true ↔ s.regs.value .cfg = 1 ∧ s.regs.head - s.regs.tail = 0) ∧
    (s.fullO = true ↔ s.regs.value .cfg = 1 ∧ s.regs.head - s.regs.tail = s.regs.cap) ∧
    (s.regs.value .cfg = 0 → s.emptyO = false ∧ s.fullO = false)

/-! ### Storage (20_memory.md) -/

/-- 20_memory.md sections 2 and 3 (derived there from R52 and R37): the slots of a configured buffer are pairwise disjoint,
cover the region exactly, lie below `2^AW`, and never hold address 0. -/
def Obligations.SlotsTileTheRegion : Prop :=
  ∀ (p : Params) (r : Regs p), r.Inv → r.cfg = true →
    (∀ a, (r.base.toNat ≤ a ∧ a < r.base.toNat + r.cap.toNat * r.esize.toNat) ↔
      ∃ x, x < r.cap.toNat ∧ r.saddr x ≤ a ∧ a < r.saddr x + r.esize.toNat) ∧
    (∀ a x y, r.saddr x ≤ a → a < r.saddr x + r.esize.toNat → r.saddr y ≤ a → a < r.saddr y + r.esize.toNat → x = y) ∧
    (∀ x, x < r.cap.toNat → 1 ≤ r.saddr x ∧ r.saddr x + r.esize.toNat ≤ 2 ^ p.addrW)

/-- 20_memory.md section 4 (the table of R60, derived there): a command changes only the registers, the response, and the bytes
it stores; only ENQ and ENQN store any, and every other byte of storage is as before. INIT alone may also clear the model's
record that the storage was released (log 10). -/
def Obligations.CommandFrame : Prop :=
  ∀ (i : Instr) (s t : State), exec i s = .next t →
    (∃ (r : Regs s.params) (m : Memory) (x : Response s.params) (b : Bool),
      t = { s with regs := r, mem := m, rsp := some x, stale := b } ∧ (b = s.stale ∨ b = false ∧ i.isInit = true)) ∧
    (∀ a, (∀ c ∈ storedCells i s, c.1 ≠ a) → t.mem.read a = s.mem.read a) ∧
    ((∀ data, i ≠ .enq data) → (∀ n data, i ≠ .enqn n data) → t.mem = s.mem)

/-- 00_scope.md R13, 20_memory.md R68: no step from a state that satisfies INV makes an access beyond the storage address
space. -/
def Obligations.NoAccessOutsideTheSpace : Prop :=
  ∀ s : State, s.regs.Inv → step s ≠ .fault .outsideAddressSpace

/-- 20_memory.md section 6 and 00_scope.md section 6 (R69, R19, 93_implementation_defined.md U3 and U5). On a configured
buffer: after a release every command that uses the buffer is refused, which is the model's reading of the two rules (log 10);
without one, a command whose access the storage answers with an error faults. Everything else, INIT and the reserved encodings
among it, answers a next state whatever the condition of the storage. -/
def Obligations.StorageConditionStopsAccesses : Prop :=
  ∀ (s : State) (i : Instr), s.regs.Inv → i.shaped s.regs.esize.toNat = true →
    (s.regs.cfg = true → (s.backing = .released ∨ s.stale = true) → i.usesBuffer = true →
      exec i s = .refused .storageReleased) ∧
    (s.regs.cfg = true → s.backing = .erring → s.stale = false →
      (∃ d, i = .enq d ∧ s.regs.occ ≠ s.regs.cap) ∨ (i = .deq ∧ s.regs.occ ≠ 0) ∨ (∃ n, i = .peek n ∧ n < s.regs.occ.toNat) ∨
        (∃ n d, i = .enqn n d ∧ 1 ≤ min n (s.regs.cap.toNat - s.regs.occ.toNat)) ∨
        (∃ n, i = .deqn n ∧ 1 ≤ min n s.regs.occ.toNat) →
      exec i s = .fault .storageError) ∧
    (s.regs.cfg = false ∨ i.usesBuffer = false ∨ (s.backing ≠ .released ∧ s.stale = false ∧ (s.backing = .erring →
      ¬ ((∃ d, i = .enq d ∧ s.regs.occ ≠ s.regs.cap) ∨ (i = .deq ∧ s.regs.occ ≠ 0) ∨
        (∃ n, i = .peek n ∧ n < s.regs.occ.toNat) ∨
        (∃ n d, i = .enqn n d ∧ 1 ≤ min n (s.regs.cap.toNat - s.regs.occ.toNat)) ∨
        (∃ n, i = .deqn n ∧ 1 ≤ min n s.regs.occ.toNat)))) →
      ∃ t, exec i s = .next t)

/-- 00_scope.md section 6 (R19) and 93_implementation_defined.md U5: once the caller has released the storage, the buffer stays
out of use, though storage is backed again and whatever else happens, until a successful INIT. Three parts are the model's own:
that the release changes no byte of storage (DESIGN CHOICE, log 17), that `rst` leaves the record of the release standing
(DESIGN CHOICE, log 5), and that INIT ends it (DEDUCED, log 10). -/
def Obligations.ReleaseLastsUntilInit : Prop :=
  (∀ (s : State) (rest : List (Input s.params)), s.regs.Inv → s.inputs = .storage .released :: rest →
    step s = .next { s with
      inputs := rest, backing := .released, stale := s.stale || decide (s.backing = .released) }) ∧
  ∀ s t : State, (s.backing = .released ∨ s.stale = true) → step s = .next t →
    (t.backing = .released ∨ t.stale = true) ∨
    ∃ (q : Request s.params) (x : Input s.params) (rest : List (Input s.params)), s.inputs = x :: rest ∧
      ((∃ o, x = .racingCommand q o) ∨ x = .command q) ∧ q.cmd = 0x01 ∧ initValid q.a q.b q.c = true

/-- 20_memory.md R62, first and last points: an access by another agent between two commands is ordered with them, a later
command reads the byte it wrote, and it never changes a register. That this is so while the storage is released or errs too is
the model's choice (log 16). -/
def Obligations.ForeignAccessBetweenCommands : Prop :=
  ∀ (s : State) (a : BitVec s.params.addrW) (b : Byte) (rest : List (Input s.params)), s.regs.Inv →
    (s.inputs = .foreignWrite [(a, b)] :: rest →
      ∃ m, step s = .next { s with inputs := rest, mem := m } ∧
        (∀ x, m.read x = if x = a.toNat then b else s.mem.read x) ∧
        ∀ i j, (s.regs.elemAt m i)[j]? = if j < s.regs.esize.toNat then
          some (if s.regs.deqAddr i + j = a.toNat then b else s.mem.read (s.regs.deqAddr i + j)) else none) ∧
    (s.inputs = .foreignRead [a] :: rest →
      step s = .next { s with inputs := rest, foreignData := [s.mem.read a.toNat] })

/-- 20_memory.md R62, second point, and 93_implementation_defined.md U4: a command that other agents' accesses overlap runs over
storage each byte of which is old or new; afterwards a byte that one side alone stored holds a value that side stored, a byte
that both stored is its old value or a stored one, and each byte the other agents read is old or new. What the spec does not say
of a race is the model's (DEDUCED, log 11), and so is that the other agents' stores and reads go on while the storage is released
or errs, beside a command that does not stop there (DESIGN CHOICE, log 16). Accesses made while `rst` is asserted are left
out. -/
def Obligations.RacingBytesAreOldOrNew : Prop :=
  ∀ (s t : State) (q : Request s.params) (o : Foreign s.params) (rest : List (Input s.params)),
    s.rst = false → s.inputs = .racingCommand q o :: rest → step s = .next t →
    ∃ (seen m : Memory) (r : Regs s.params) (x : Response s.params) (b : Bool) (d : List Byte) (n : Nat),
      (∀ a, seen.read a = s.mem.read a ∨ (a, seen.read a) ∈ foreignCells o.writes) ∧
      exec (decode q) { s with inputs := rest, mem := seen } = .next { s with
        inputs := rest, regs := r, mem := seen.writeCells (storedCells (decode q) s), rsp := some x, stale := b } ∧
      t = { s with
        inputs := rest, regs := r, mem := m, rsp := some x, stale := b, foreignData := d, draws := n } ∧
      (∀ a, touches (storedCells (decode q) s) a = false → touches (foreignCells o.writes) a = false →
        m.read a = s.mem.read a) ∧
      (∀ a, touches (foreignCells o.writes) a = false →
        m.read a = (s.mem.writeCells (storedCells (decode q) s)).read a) ∧
      (∀ a, touches (storedCells (decode q) s) a = false →
        m.read a = (s.mem.writeCells (foreignCells o.writes)).read a) ∧
      (∀ a, m.read a = s.mem.read a ∨ (a, m.read a) ∈ storedCells (decode q) s ∨
        (a, m.read a) ∈ foreignCells o.writes) ∧
      d.length = o.reads.length ∧
      ∀ (k : Nat) (a : BitVec s.params.addrW) (b : Byte), o.reads[k]? = some a → d[k]? = some b →
        b = s.mem.read a.toNat ∨ (a.toNat, b) ∈ storedCells (decode q) s ∨ (a.toNat, b) ∈ foreignCells o.writes

/-! ### INIT (40_configuration.md) -/

/-- 40_configuration.md R90, R91, R92: INIT in any state. With the five conditions true, the six registers take their values
together, the flags follow, and nothing else of the block or of storage changes; otherwise nothing changes at all. What becomes
of the model's own field `stale` is said in `InitEmptiesTheQueue`. -/
def Obligations.InitEffect : Prop :=
  ∀ (s : State) (q : Request s.params), q.cmd = 0x01 →
    (q.a ≠ 0 ∧ 1 ≤ q.b.toNat ∧ q.c ≠ 0 ∧ (q.c - 1) &&& q.c = 0 ∧ q.a.toNat + q.c.toNat * q.b.toNat ≤ 2 ^ s.params.addrW →
      ∃ (b : Bool) (t : State), t = { s with
          regs := { base := q.a, esize := q.b, cap := q.c, head := 0, tail := 0, cfg := true }
          rsp := some ⟨true, 0, []⟩
          stale := b } ∧
        exec (decode q) s = .next t ∧ t.cfgO = true ∧ t.emptyO = true ∧ t.fullO = false) ∧
    (¬ (q.a ≠ 0 ∧ 1 ≤ q.b.toNat ∧ q.c ≠ 0 ∧ (q.c - 1) &&& q.c = 0 ∧
        q.a.toNat + q.c.toNat * q.b.toNat ≤ 2 ^ s.params.addrW) →
      exec (decode q) s = .next { s with rsp := some ⟨false, 0, []⟩ })

/-- 40_configuration.md R94 (derived there from R90 and R11): the bit test of INIT accepts exactly the powers of two from 1 to
`2^(W-1)`. -/
def Obligations.CapacityTestAcceptsPowersOfTwo : Prop :=
  ∀ (p : Params) (c : BitVec p.ctrW), powerOfTwo c = true ↔ ∃ j, j < p.ctrW ∧ c.toNat = 2 ^ j

/-- 40_configuration.md R93 (derived in part): after a successful INIT the queue is empty, whatever it held, and the buffer is
configured. That no earlier release stands against its use any more is the model's reading (log 10). -/
def Obligations.InitEmptiesTheQueue : Prop :=
  ∀ (s t : State) (base esize num : Nat), exec (.init base esize num) s = .next t →
    responseOf (.next t) = some (true, 0, []) →
    t.queue = [] ∧ t.regs.Inv ∧ t.regs.cfg = true ∧ t.mem = s.mem ∧ t.stale = false

/-! ### Single-element commands (41_single_element.md) -/

/-- 41_single_element.md R100, R101, R102, R103. -/
def Obligations.EnqEffect : Prop :=
  ∀ (s : State) (q : Request s.params) (e : Elem), q.cmd = 0x02 → q.d = [e] →
    (s.regs.cfg = false → exec (decode q) s = .next { s with rsp := some ⟨false, 0, []⟩ }) ∧
    (s.regs.cfg = true → s.backing ≠ .released → s.stale = false → e.length = s.regs.esize.toNat →
      s.regs.head - s.regs.tail = s.regs.cap →
      exec (decode q) s = .next { s with rsp := some ⟨false, 0, []⟩ }) ∧
    (s.regs.Inv → s.regs.cfg = true → s.backing = .backed → s.stale = false → e.length = s.regs.esize.toNat →
      s.regs.head - s.regs.tail ≠ s.regs.cap →
      ∃ (addr : Nat) (m : Memory) (t : State),
        addr = s.regs.base.toNat + (s.regs.head &&& (s.regs.cap - 1)).toNat * s.regs.esize.toNat ∧
        t = { s with regs := { s.regs with head := s.regs.head + 1 }, mem := m, rsp := some ⟨true, 0, []⟩ } ∧
        exec (decode q) s = .next t ∧
        (∀ j, j < s.regs.esize.toNat → some (m.read (addr + j)) = e[j]?) ∧
        (∀ a, a < addr ∨ addr + s.regs.esize.toNat ≤ a → m.read a = s.mem.read a) ∧
        t.emptyO = false ∧ (t.fullO = true ↔ (s.regs.head - s.regs.tail).toNat = s.regs.cap.toNat - 1))

/-- 41_single_element.md R104, R105: only TAIL and the response change, and the element is read from the oldest slot. -/
def Obligations.DeqEffect : Prop :=
  ∀ (s : State) (q : Request s.params), q.cmd = 0x03 →
    (s.regs.cfg = false ∨ (s.backing ≠ .released ∧ s.stale = false ∧ s.regs.head - s.regs.tail = 0) →
      exec (decode q) s = .next { s with rsp := some ⟨false, 0, []⟩ }) ∧
    (s.regs.Inv → s.regs.cfg = true → s.backing = .backed → s.stale = false → s.regs.head - s.regs.tail ≠ 0 →
      ∃ (e : Elem) (t : State),
        t = { s with regs := { s.regs with tail := s.regs.tail + 1 }, rsp := some ⟨true, 0, [e]⟩ } ∧
        exec (decode q) s = .next t ∧
        e.length = s.regs.esize.toNat ∧
        (∀ j, j < s.regs.esize.toNat → e[j]? = some (s.mem.read
          (s.regs.base.toNat + (s.regs.tail &&& (s.regs.cap - 1)).toNat * s.regs.esize.toNat + j))) ∧
        t.fullO = false ∧ (t.emptyO = true ↔ (s.regs.head - s.regs.tail).toNat = 1))

/-- 41_single_element.md R108, R109: nothing but the response changes. -/
def Obligations.PeekEffect : Prop :=
  ∀ (s : State) (q : Request s.params), q.cmd = 0x04 →
    (s.regs.cfg = false ∨ (s.backing ≠ .released ∧ s.stale = false ∧
        (s.regs.head - s.regs.tail = 0 ∨ (s.regs.head - s.regs.tail).toNat ≤ q.b.toNat)) →
      exec (decode q) s = .next { s with rsp := some ⟨false, 0, []⟩ }) ∧
    (s.regs.Inv → s.regs.cfg = true → s.backing = .backed → s.stale = false → q.b.toNat < (s.regs.head - s.regs.tail).toNat →
      ∃ e : Elem,
        exec (decode q) s = .next { s with rsp := some ⟨true, 0, [e]⟩ } ∧
        e.length = s.regs.esize.toNat ∧
        ∀ j, j < s.regs.esize.toNat → e[j]? = some (s.mem.read
          (s.regs.base.toNat + ((s.regs.tail + q.b) &&& (s.regs.cap - 1)).toNat * s.regs.esize.toNat + j)))

/-- 41_single_element.md R110 (derived there from R104, R106, R108): `PEEK i` returns what `DEQ` returns after `i` prior
`DEQ`s. -/
def Obligations.PeekAgreesWithDequeues : Prop :=
  ∀ (s : State) (i : Nat), s.Usable → i < s.regs.occ.toNat →
    ∃ t e, runCommands (List.replicate i .deq) s = .next t ∧
      responseOf (exec .deq t) = some (true, 0, [e]) ∧ responseOf (exec (.peek i) s) = some (true, 0, [e])

/-- 41_single_element.md R111 (derived there from R109): with no mutating command between, a repeated PEEK returns the same
result. Failed ENQs, DEQs and INITs and bulk commands that move nothing may stand between. -/
def Obligations.PeekIsIdempotent : Prop :=
  ∀ (s t : State) (i : Nat) (is : List Instr), noneMutates is s = true → runCommands is s = .next t →
    responseOf (exec (.peek i) t) = responseOf (exec (.peek i) s)

/-- 41_single_element.md R112 (derived there): a query, a PEEK, a reserved encoding, a failed command, and a bulk command that
moves nothing leave every register and storage as they were. -/
def Obligations.NothingMovedNothingChanged : Prop :=
  ∀ (i : Instr) (s t : State), exec i s = .next t →
    i.readOnly = true ∨ (∃ v r, responseOf (.next t) = some (false, v, r)) ∨
      (i.isInit = false ∧ elemsStored i s = 0 ∧ elemsRemoved i s = 0) →
    ∃ x, t = { s with rsp := some x }

/-! ### Queries (42_queries.md). A buffer whose storage was released is out of use (`StorageConditionStopsAccesses`, log 10);
the storage may err. -/

/-- 42_queries.md R120: ISEMPTY, whose result equals the status output. -/
def Obligations.IsemptyResult : Prop :=
  ∀ (s : State) (q : Request s.params), q.cmd = 0x05 →
    (s.regs.cfg = false → exec (decode q) s = .next { s with rsp := some ⟨false, 0, []⟩ }) ∧
    (s.regs.cfg = true → s.backing ≠ .released → s.stale = false →
      exec (decode q) s = .next { s with rsp := some ⟨true, if s.regs.head = s.regs.tail then 1 else 0, []⟩ } ∧
      (s.emptyO = true ↔ s.regs.head = s.regs.tail))

/-- 42_queries.md R122: ISFULL, whose result equals the status output and is never 1 together with ISEMPTY's. -/
def Obligations.IsfullResult : Prop :=
  ∀ (s : State) (q : Request s.params), q.cmd = 0x06 →
    (s.regs.cfg = false → exec (decode q) s = .next { s with rsp := some ⟨false, 0, []⟩ }) ∧
    (s.regs.cfg = true → s.backing ≠ .released → s.stale = false →
      exec (decode q) s
        = .next { s with rsp := some ⟨true, if s.regs.head - s.regs.tail = s.regs.cap then 1 else 0, []⟩ } ∧
      (s.fullO = true ↔ s.regs.head - s.regs.tail = s.regs.cap) ∧
      (s.regs.Inv → s.regs.head - s.regs.tail = s.regs.cap → s.regs.head ≠ s.regs.tail))

/-- 42_queries.md R124: OCC; and its range on a state that satisfies INV. -/
def Obligations.OccResult : Prop :=
  ∀ (s : State) (q : Request s.params), q.cmd = 0x07 →
    (s.regs.cfg = false → exec (decode q) s = .next { s with rsp := some ⟨false, 0, []⟩ }) ∧
    (s.regs.cfg = true → s.backing ≠ .released → s.stale = false →
      exec (decode q) s = .next { s with rsp := some ⟨true, s.regs.head - s.regs.tail, []⟩ } ∧
      (s.regs.Inv → (s.regs.head - s.regs.tail).toNat ≤ s.regs.cap.toNat))

/-- 42_queries.md R125 (derived there): the three query results agree, in every configured state that satisfies INV. -/
def Obligations.QueriesAreConsistent : Prop :=
  ∀ (s : State), s.regs.Inv → s.regs.cfg = true → s.backing ≠ .released → s.stale = false →
    ∃ e f o, responseOf (exec .isempty s) = some (true, e, []) ∧ responseOf (exec .isfull s) = some (true, f, []) ∧
      responseOf (exec .occ s) = some (true, o, []) ∧
      (e = 1 ↔ o = 0) ∧ (f = 1 ↔ o = s.regs.cap.toNat) ∧ e + f ≤ 1

/-! ### Bulk commands (43_bulk.md) -/

/-- 43_bulk.md R130, R131, R132: the first `min(n, SPACE)` elements go to the write slots in order, the surplus is never
written, and the flags follow. -/
def Obligations.EnqnEffect : Prop :=
  ∀ (s : State) (q : Request s.params), q.cmd = 0x08 →
    (s.regs.cfg = false → exec (decode q) s = .next { s with rsp := some ⟨false, 0, []⟩ }) ∧
    (s.regs.Inv → s.regs.cfg = true → s.backing = .backed → s.stale = false →
      q.d.length = q.b.toNat → (∀ e ∈ q.d, e.length = s.regs.esize.toNat) →
      ∃ (addr : Nat → Nat) (k space : Nat) (m : Memory) (t : State),
        space = s.regs.cap.toNat - (s.regs.head - s.regs.tail).toNat ∧ k = min q.b.toNat space ∧
        (∀ i, addr i = s.regs.base.toNat
          + ((s.regs.head + BitVec.ofNat _ i) &&& (s.regs.cap - 1)).toNat * s.regs.esize.toNat) ∧
        t = { s with
          regs := { s.regs with head := s.regs.head + BitVec.ofNat _ k }, mem := m
          rsp := some ⟨true, BitVec.ofNat _ k, []⟩ } ∧
        exec (decode q) s = .next t ∧
        (∀ i e j, i < k → q.d[i]? = some e → j < s.regs.esize.toNat → some (m.read (addr i + j)) = e[j]?) ∧
        (∀ a, (∀ i, i < k → a < addr i ∨ addr i + s.regs.esize.toNat ≤ a) → m.read a = s.mem.read a) ∧
        (1 ≤ k → t.emptyO = false) ∧ (t.fullO = true ↔ (k = space ∧ 1 ≤ space) ∨ s.fullO = true) ∧
        (k = 0 → m = s.mem ∧ t.regs.value .head = s.regs.value .head))

/-- 43_bulk.md R135, R131: the `min(n, OCC)` oldest elements come back in order, only TAIL and the response change, and the
flags follow. -/
def Obligations.DeqnEffect : Prop :=
  ∀ (s : State) (q : Request s.params), q.cmd = 0x09 →
    (s.regs.cfg = false → exec (decode q) s = .next { s with rsp := some ⟨false, 0, []⟩ }) ∧
    (s.regs.Inv → s.regs.cfg = true → s.backing = .backed → s.stale = false →
      ∃ (k : Nat) (es : List Elem) (t : State),
        k = min q.b.toNat (s.regs.head - s.regs.tail).toNat ∧
        t = { s with
          regs := { s.regs with tail := s.regs.tail + BitVec.ofNat _ k }
          rsp := some ⟨true, BitVec.ofNat _ k, es⟩ } ∧
        exec (decode q) s = .next t ∧
        es.length = k ∧ (∀ e ∈ es, e.length = s.regs.esize.toNat) ∧
        (∀ i e j, es[i]? = some e → j < s.regs.esize.toNat → e[j]? = some (s.mem.read (s.regs.base.toNat
          + ((s.regs.tail + BitVec.ofNat _ i) &&& (s.regs.cap - 1)).toNat * s.regs.esize.toNat + j))) ∧
        (1 ≤ k → t.fullO = false) ∧
        (t.emptyO = true ↔
          (k = (s.regs.head - s.regs.tail).toNat ∧ 1 ≤ (s.regs.head - s.regs.tail).toNat) ∨ s.emptyO = true))

/-- 43_bulk.md R133 (derived there from R130 and R100): ENQN leaves the registers and storage of as many ENQs, of which the
first `k` succeed and no other; `k` is its VAL. -/
def Obligations.EnqnIsRepeatedEnq : Prop :=
  ∀ (s : State) (n : Nat) (data : List Elem), s.Usable → dataShaped s.regs.esize.toNat n data = true →
    ∃ (r : Regs s.params) (m : Memory) (y : Option (Response s.params)) (k : Nat),
      k = min n s.regs.space.toNat ∧
      exec (.enqn n data) s = .next { s with regs := r, mem := m, rsp := some ⟨true, BitVec.ofNat _ k, []⟩ } ∧
      runCommands (data.map fun e => .enq [e]) s = .next { s with regs := r, mem := m, rsp := y } ∧
      okCount (data.map fun e => .enq [e]) s = k ∧ okCount ((data.take k).map fun e => .enq [e]) s = k

/-- 43_bulk.md R136 (derived there from R135 and R104): DEQN leaves the registers and storage of `k` DEQs, all of which
succeed; its R is their R lists in order; and each further DEQ fails. -/
def Obligations.DeqnIsRepeatedDeq : Prop :=
  ∀ (s : State) (n : Nat), s.Usable →
    ∃ (r : Regs s.params) (y y' : Option (Response s.params)) (k : Nat),
      k = min n s.regs.occ.toNat ∧
      exec (.deqn n) s = .next { s with
        regs := r, rsp := some ⟨true, BitVec.ofNat _ k, returned (List.replicate k .deq) s⟩ } ∧
      runCommands (List.replicate k .deq) s = .next { s with regs := r, rsp := y } ∧
      okCount (List.replicate k .deq) s = k ∧
      runCommands (List.replicate n .deq) s = .next { s with regs := r, rsp := y' } ∧
      okCount (List.replicate n .deq) s = k

/-! ### Failures and the whole machine (60_exceptions.md, 10_state.md, 41_single_element.md) -/

/-- 60_exceptions.md R152: before a successful INIT every command but INIT is FAIL, whatever its operands and write data. -/
def Obligations.UnconfiguredCommandsFail : Prop :=
  ∀ (s : State) (q : Request s.params), s.regs.cfg = false → q.cmd ≠ 0x01 →
    exec (decode q) s = .next { s with rsp := some ⟨false, 0, []⟩ }

/-- 60_exceptions.md R151: the causes of `OK = 0` are exactly those of the table, and every one gives the response `OK = 0`,
`VAL = 0`, `R = []` with nothing else changed. -/
def Obligations.FailureCauses : Prop :=
  ∀ (s : State) (q : Request s.params),
    ((decode q).shaped s.regs.esize.toNat = true ∧ s.backing ≠ .released ∧ s.stale = false) ∨ s.regs.cfg = false ∨
      q.cmd = 0x01 →
    ((∃ v r, responseOf (exec (decode q) s) = some (false, v, r)) ↔
      (q.cmd.toNat < 1 ∨ 9 < q.cmd.toNat) ∨
      (s.regs.cfg = false ∧ q.cmd ≠ 0x01) ∨
      (q.cmd = 0x01 ∧ ¬ (q.a ≠ 0 ∧ 1 ≤ q.b.toNat ∧ q.c ≠ 0 ∧ (q.c - 1) &&& q.c = 0 ∧
        q.a.toNat + q.c.toNat * q.b.toNat ≤ 2 ^ s.params.addrW)) ∨
      (q.cmd = 0x02 ∧ s.regs.head - s.regs.tail = s.regs.cap) ∨
      (q.cmd = 0x03 ∧ s.regs.head - s.regs.tail = 0) ∨
      (q.cmd = 0x04 ∧ (s.regs.head - s.regs.tail = 0 ∨ (s.regs.head - s.regs.tail).toNat ≤ q.b.toNat))) ∧
    ((∃ v r, responseOf (exec (decode q) s) = some (false, v, r)) →
      exec (decode q) s = .next { s with rsp := some ⟨false, 0, []⟩ })

/-- 60_exceptions.md R150, 30_encoding.md R76: on a state that satisfies INV with backed storage, not released since INIT, every
command with write data of the right shape completes, with one response and no trap, and leaves everything but the registers,
the storage and the response as it was. That a command always responds is an assumption of the model, the fairness assumption
of 70_reset_and_hazards.md R178 (DEDUCED, log 15). -/
def Obligations.EveryCommandCompletes : Prop :=
  ∀ (s : State) (i : Instr), s.regs.Inv → s.backing = .backed → s.stale = false →
    i.shaped s.regs.esize.toNat = true ∨ s.regs.cfg = false →
    ∃ (r : Regs s.params) (m : Memory) (x : Response s.params),
      exec i s = .next { s with regs := r, mem := m, rsp := some x }

/-- 10_state.md section 5 (the counting law R41, derived there): over any run of commands without INIT, HEAD advances by the
elements stored and TAIL by the elements removed, modulo `2^W`, and the occupancy is stored minus removed exactly. -/
def Obligations.CountingLaw : Prop :=
  ∀ (is : List Instr) (s t : State), s.regs.Inv → (∀ i ∈ is, i.isInit = false) → runCommands is s = .next t →
    t.regs.value .head = (s.regs.value .head + runSum elemsStored is s) % 2 ^ s.params.ctrW ∧
    t.regs.value .tail = (s.regs.value .tail + runSum elemsRemoved is s) % 2 ^ s.params.ctrW ∧
    t.regs.occ.toNat + runSum elemsRemoved is s = s.regs.occ.toNat + runSum elemsStored is s

/-- 41_single_element.md section 2 (the FIFO order R106, derived there): a usable buffer behaves as a bounded first-in
first-out queue, command by command, in its contents and its responses. -/
def Obligations.BufferRefinesFifoQueue : Prop :=
  ∀ (s : State) (i : Instr), s.Usable → i.isInit = false → i.shaped s.regs.esize.toNat = true →
    s.queue.length = s.regs.occ.toNat ∧
    ∃ t, exec i s = .next t ∧ t.Usable ∧
      t.queue = (queueStep s.regs.cap.toNat s.queue i).1 ∧
      responseOf (.next t) = some (queueStep s.regs.cap.toNat s.queue i).2

/-- 41_single_element.md section 2 (R106): over any run of well-shaped commands on a usable buffer, INIT alone left out because
it discards the contents, the elements that DEQ and DEQN remove followed by the elements still stored are the elements stored
at the start followed by those enqueued: no element is lost, invented or reordered. PEEK, the queries, the reserved encodings
and failing commands may stand in the run. -/
def Obligations.RunKeepsFifoOrder : Prop :=
  ∀ (is : List Instr) (s : State), s.Usable →
    (∀ i ∈ is, i.isInit = false ∧ i.shaped s.regs.esize.toNat = true) →
    ∃ t : State, runCommands is s = .next t ∧ t.Usable ∧
      dequeuedBy is s ++ t.queue = s.queue ++ enqueuedBy is s
end

