-- ==== Sys2Proof/Laws/Memory.lean ====
section
/-! SUPPORT. The laws of storage: a read after a write, a write leaves every other address alone, and every memory operation
keeps the canonical form and the address space. -/

namespace Sys2Proof.Machine

/-! ### One byte -/

@[simp] theorem Memory.written_nil (a : Nat) : Memory.written [] a = none := rfl

/-- What one store does to what has been written at an address. -/
theorem Memory.written_write (m : Memory) (a x : Nat) (b : Byte) :
    (m.write a b).written x = if x = a then some b else m.written x := by
  induction m with
  | nil => simp [Memory.write, Memory.written]
  | cons c m ih =>
    simp only [Memory.write]
    split
    · rfl
    · split
      · simp only [Memory.written]; split_ifs <;> simp_all
      · simp only [Memory.written, ih]; split_ifs <;> simp_all

/-- A read after a store (20_memory.md R58). -/
theorem Memory.read_write (m : Memory) (a x : Nat) (b : Byte) :
    (m.write a b).read x = if x = a then b else m.read x := by
  simp only [Memory.read, Memory.written_write]; split <;> rfl

@[simp] theorem Memory.read_write_same (m : Memory) (a : Nat) (b : Byte) : (m.write a b).read a = b := by
  simp [Memory.read_write]

/-- An address listed after a store is the stored one or was listed before. -/
theorem Memory.mem_write {m : Memory} {a : Nat} {b : Byte} {c : Host.Cell} (h : c ∈ m.write a b) :
    c = (a, b) ∨ c ∈ m := by
  induction m with
  | nil => simpa [Memory.write] using h
  | cons d m ih =>
    simp only [Memory.write] at h
    split at h
    · simpa using h
    · split at h
      · rcases List.mem_cons.1 h with h | h
        · exact .inl h
        · exact .inr (List.mem_cons_of_mem _ h)
      · rcases List.mem_cons.1 h with h | h
        · exact .inr (h ▸ List.mem_cons_self)
        · exact (ih h).imp id (List.mem_cons_of_mem _)

/-- A store keeps the canonical form. -/
theorem Memory.wf_write {m : Memory} (h : m.wf) (a : Nat) (b : Byte) : (m.write a b).wf := by
  induction m with
  | nil => simp [Memory.write, Memory.wf]
  | cons c m ih =>
    obtain ⟨hc, hm⟩ := List.pairwise_cons.1 h
    simp only [Memory.write]
    split
    case isTrue hlt =>
      refine List.pairwise_cons.2 ⟨fun d hd => ?_, h⟩
      rcases List.mem_cons.1 hd with rfl | hd
      · exact hlt
      · exact hlt.trans (hc d hd)
    case isFalse hge =>
      split
      case isTrue heq => exact List.pairwise_cons.2 ⟨fun d hd => heq ▸ hc d hd, hm⟩
      case isFalse hne =>
        refine List.pairwise_cons.2 ⟨fun d hd => ?_, ih hm⟩
        rcases Memory.mem_write hd with rfl | hd
        · show c.1 < a; omega
        · exact hc d hd

/-- A store inside the address space keeps storage inside it. -/
theorem Memory.inSpace_write {m : Memory} {aw a : Nat} (h : m.inSpace aw) (ha : a < 2 ^ aw) (b : Byte) :
    (m.write a b).inSpace aw := fun c hc => by
  rcases Memory.mem_write hc with rfl | hc
  · exact ha
  · exact h c hc

/-! ### Lists of stores -/

@[simp] theorem Memory.writeCells_nil (m : Memory) : m.writeCells [] = m := by cases m <;> rfl

@[simp] theorem Memory.writeCells_cons (m : Memory) (c : Host.Cell) (cs : List Host.Cell) :
    m.writeCells (c :: cs) = (m.write c.1 c.2).writeCells cs := by cases m <;> rfl

theorem Memory.writeCells_append (m : Memory) (cs ds : List Host.Cell) :
    m.writeCells (cs ++ ds) = (m.writeCells cs).writeCells ds := by
  induction cs generalizing m with
  | nil => simp
  | cons c cs ih => simp [ih]

/-- Stores keep the canonical form. -/
theorem Memory.wf_writeCells {m : Memory} (h : m.wf) (cs : List Host.Cell) : (m.writeCells cs).wf := by
  induction cs generalizing m with
  | nil => simpa using h
  | cons c cs ih => simpa using ih (Memory.wf_write h c.1 c.2)

/-- Stores inside the address space keep storage inside it. -/
theorem Memory.inSpace_writeCells {m : Memory} {aw : Nat} (h : m.inSpace aw) {cs : List Host.Cell}
    (hcs : ∀ c ∈ cs, c.1 < 2 ^ aw) : (m.writeCells cs).inSpace aw := by
  induction cs generalizing m with
  | nil => simpa using h
  | cons c cs ih =>
    simpa using ih (Memory.inSpace_write h (hcs c List.mem_cons_self) c.2)
      fun d hd => hcs d (List.mem_cons_of_mem _ hd)

/-- Stores leave alone every address none of them goes to. -/
theorem Memory.read_writeCells_of_not_touched (m : Memory) {cs : List Host.Cell} {a : Nat} (h : ∀ c ∈ cs, c.1 ≠ a) :
    (m.writeCells cs).read a = m.read a := by
  induction cs generalizing m with
  | nil => simp
  | cons c cs ih =>
    rw [Memory.writeCells_cons, ih _ fun d hd => h d (List.mem_cons_of_mem _ hd), Memory.read_write,
      if_neg (h c List.mem_cons_self).symm]

/-! ### Elements -/

@[simp] theorem Memory.readBytes_length (m : Memory) (a n : Nat) : (m.readBytes a n).length = n := by
  induction n generalizing a with
  | zero => rfl
  | succ n ih => simp [Memory.readBytes, ih]

/-- Byte `j` of a `MemRead` (00_scope.md R13). -/
theorem Memory.getElem?_readBytes (m : Memory) (a n j : Nat) :
    (m.readBytes a n)[j]? = if j < n then some (m.read (a + j)) else none := by
  induction n generalizing a j with
  | zero => simp [Memory.readBytes]
  | succ n ih =>
    cases j with
    | zero => simp [Memory.readBytes]
    | succ j => simp [Memory.readBytes, ih, Nat.add_assoc, Nat.add_comm 1 j]

/-- A `MemRead` depends only on the bytes it reads. -/
theorem Memory.readBytes_congr {m m' : Memory} {a n : Nat} (h : ∀ j, j < n → m'.read (a + j) = m.read (a + j)) :
    m'.readBytes a n = m.readBytes a n := by
  refine List.ext_getElem? fun j => ?_
  simp only [Memory.getElem?_readBytes]
  split
  · rw [h j ‹_›]
  · rfl

/-- The stores of a `MemWrite` go to the `n` addresses from `addr` upward. -/
theorem mem_cellsAt {a : Nat} {bs : List Byte} {c : Host.Cell} (h : c ∈ cellsAt a bs) :
    a ≤ c.1 ∧ c.1 < a + bs.length := by
  induction bs generalizing a with
  | nil => simp [cellsAt] at h
  | cons b bs ih =>
    rcases List.mem_cons.1 h with rfl | h
    · simp
    · have := ih h; simp; omega

/-- What a `MemWrite` does to a byte (00_scope.md R13). -/
theorem Memory.read_writeCells_cellsAt (m : Memory) (a : Nat) (bs : List Byte) (x : Nat) :
    (m.writeCells (cellsAt a bs)).read x = if a ≤ x then (bs[x - a]?).getD (m.read x) else m.read x := by
  induction bs generalizing a m with
  | nil => simp [cellsAt]
  | cons b bs ih =>
    simp only [cellsAt, Memory.writeCells_cons, ih, Memory.read_write]
    rcases lt_trichotomy x a with h | h | h
    · simp [Nat.not_le.2 h, show ¬ a + 1 ≤ x by omega, show x ≠ a by omega]
    · subst h; simp
    · obtain ⟨k, rfl⟩ : ∃ k, x = a + 1 + k := ⟨x - (a + 1), by omega⟩
      simp [show a + 1 + k - a = k + 1 by omega, show a ≤ a + 1 + k by omega, show a + 1 + k ≠ a by omega]

/-- A `MemRead` of what a `MemWrite` stored returns it (20_memory.md R54, R57, R58). -/
theorem Memory.readBytes_writeCells_cellsAt (m : Memory) (a : Nat) (bs : List Byte) :
    (m.writeCells (cellsAt a bs)).readBytes a bs.length = bs := by
  refine List.ext_getElem? fun j => ?_
  simp only [Memory.getElem?_readBytes, Memory.read_writeCells_cellsAt]
  split
  · simp [List.getElem?_eq_getElem ‹_›]
  · simp [List.getElem?_eq_none (Nat.not_lt.1 ‹_›)]

/-! ### Drawn stores -/

@[simp] theorem drawCells_nil (m : Memory) (n : Nat) : drawCells m n [] = m := by cases m <;> rfl

@[simp] theorem drawCells_cons (m : Memory) (n : Nat) (c : Host.Cell) (cs : List Host.Cell) :
    drawCells m n (c :: cs) = drawCells (if Config.freeBit n then m.write c.1 c.2 else m) (n + 1) cs := by
  cases m <;> rfl

/-- Drawn stores keep the canonical form. -/
theorem wf_drawCells {m : Memory} (h : m.wf) (n : Nat) (cs : List Host.Cell) : (drawCells m n cs).wf := by
  induction cs generalizing m n with
  | nil => simpa using h
  | cons c cs ih =>
    rw [drawCells_cons]
    split
    · exact ih (Memory.wf_write h c.1 c.2) _
    · exact ih h _

/-- Drawn stores inside the address space keep storage inside it. -/
theorem inSpace_drawCells {m : Memory} {aw : Nat} (h : m.inSpace aw) (n : Nat) {cs : List Host.Cell}
    (hcs : ∀ c ∈ cs, c.1 < 2 ^ aw) : (drawCells m n cs).inSpace aw := by
  induction cs generalizing m n with
  | nil => simpa using h
  | cons c cs ih =>
    have hcs' := fun d hd => hcs d (List.mem_cons_of_mem _ hd)
    rw [drawCells_cons]
    split
    · exact ih (Memory.inSpace_write h (hcs c List.mem_cons_self) c.2) _ hcs'
    · exact ih h _ hcs'

/-- A byte after drawn stores is the old one or one that was stored to it: all that 93_implementation_defined.md U4 and U8
promise. -/
theorem read_drawCells (m : Memory) (n : Nat) (cs : List Host.Cell) (a : Nat) :
    (drawCells m n cs).read a = m.read a ∨ (a, (drawCells m n cs).read a) ∈ cs := by
  induction cs generalizing m n with
  | nil => simp
  | cons c cs ih =>
    rw [drawCells_cons]
    rcases ih (if Config.freeBit n then m.write c.1 c.2 else m) (n + 1) with h | h
    · rw [h]
      split
      · rw [Memory.read_write]
        split
        next hac => right; simp [hac]
        · exact .inl rfl
      · exact .inl rfl
    · exact .inr (List.mem_cons_of_mem _ h)

end Sys2Proof.Machine
end

