-- ==== Sys2Proof/Laws/Registers.lean ====
section
/-! SUPPORT. The arithmetic of the registers: what INV gives, the slot of a counter value as a remainder, where slots lie, and
how the occupancy moves. -/

namespace Sys2Proof.Machine

variable {p : Params}

/-! ### What INV gives -/

theorem Regs.Inv.capPow {r : Regs p} (h : r.Inv) (hc : r.cfg = true) : ∃ j, j < p.ctrW ∧ r.cap.toNat = 2 ^ j :=
  (h.2 hc).2.2.1

theorem Regs.Inv.base_pos {r : Regs p} (h : r.Inv) (hc : r.cfg = true) : 1 ≤ r.base.toNat := by
  have := (h.2 hc).1
  rcases Nat.eq_zero_or_pos r.base.toNat with h0 | h0
  · exact absurd (BitVec.eq_of_toNat_eq (by simpa using h0)) this
  · exact h0

theorem Regs.Inv.esize_pos {r : Regs p} (h : r.Inv) (hc : r.cfg = true) : 1 ≤ r.esize.toNat := (h.2 hc).2.1

theorem Regs.Inv.cap_pos {r : Regs p} (h : r.Inv) (hc : r.cfg = true) : 1 ≤ r.cap.toNat := by
  obtain ⟨j, -, hj⟩ := h.capPow hc
  rw [hj]; exact Nat.one_le_two_pow

/-- `CAP <= 2^(W-1) < 2^W` (10_state.md R40). -/
theorem Regs.Inv.two_cap_le {r : Regs p} (h : r.Inv) (hc : r.cfg = true) : 2 * r.cap.toNat ≤ 2 ^ p.ctrW := by
  obtain ⟨j, hj, hcap⟩ := h.capPow hc
  rw [hcap, ← Nat.pow_succ']
  exact Nat.pow_le_pow_right (by decide) hj

theorem Regs.Inv.cap_dvd {r : Regs p} (h : r.Inv) (hc : r.cfg = true) : r.cap.toNat ∣ 2 ^ p.ctrW := by
  obtain ⟨j, hj, hcap⟩ := h.capPow hc
  rw [hcap]; exact Nat.pow_dvd_pow 2 hj.le

/-- The region lies inside the storage address space (20_memory.md R53). -/
theorem Regs.Inv.region_le {r : Regs p} (h : r.Inv) (hc : r.cfg = true) :
    r.base.toNat + r.cap.toNat * r.esize.toNat ≤ 2 ^ p.addrW := (h.2 hc).2.2.2.1

theorem Regs.Inv.occ_le {r : Regs p} (h : r.Inv) (hc : r.cfg = true) : r.occ.toNat ≤ r.cap.toNat := (h.2 hc).2.2.2.2

/-! ### Slots -/

/-- `MASK` is `CAP - 1` as a number (10_state.md R31). -/
theorem Regs.Inv.mask_toNat {r : Regs p} (h : r.Inv) (hc : r.cfg = true) : r.mask.toNat = r.cap.toNat - 1 := by
  have h1 := h.cap_pos hc
  have h2 := r.cap.isLt
  have hW : 1 < 2 ^ p.ctrW := Nat.one_lt_two_pow (by have := p.ctrW_pos; omega)
  have h3 : (1 : BitVec p.ctrW).toNat = 1 := Nat.mod_eq_of_lt hW
  rw [Regs.mask, BitVec.toNat_sub, h3, show 2 ^ p.ctrW - 1 + r.cap.toNat = (r.cap.toNat - 1) + 2 ^ p.ctrW by omega, Nat.add_mod_right]
  exact Nat.mod_eq_of_lt (by omega)

/-- Masking is the remainder modulo `CAP` (10_state.md R31). -/
theorem Regs.Inv.slot_toNat {r : Regs p} (h : r.Inv) (hc : r.cfg = true) (c : BitVec p.ctrW) :
    (r.slot c).toNat = c.toNat % r.cap.toNat := by
  obtain ⟨j, -, hj⟩ := h.capPow hc
  simp only [Regs.slot, BitVec.toNat_and, h.mask_toNat hc, hj, Nat.and_two_pow_sub_one_eq_mod]

/-- The wraparound law: the slot of a counter advanced by `n`, wrap or no wrap (10_state.md R35). -/
theorem Regs.Inv.slot_add_toNat {r : Regs p} (h : r.Inv) (hc : r.cfg = true) (c : BitVec p.ctrW) (n : Nat) :
    (r.slot (c + BitVec.ofNat p.ctrW n)).toNat = (c.toNat + n) % r.cap.toNat := by
  rw [h.slot_toNat hc]
  simp only [BitVec.toNat_add, BitVec.toNat_ofNat, Nat.add_mod_mod, Nat.mod_mod_of_dvd _ (h.cap_dvd hc)]

theorem Regs.Inv.slot_lt {r : Regs p} (h : r.Inv) (hc : r.cfg = true) (c : BitVec p.ctrW) :
    (r.slot c).toNat < r.cap.toNat := by
  rw [h.slot_toNat hc]; exact Nat.mod_lt _ (h.cap_pos hc)

/-- Every slot lies inside the region (20_memory.md R53). -/
theorem Regs.Inv.addrOf_add_le {r : Regs p} (h : r.Inv) (hc : r.cfg = true) (c : BitVec p.ctrW) :
    r.base.toNat ≤ r.addrOf c ∧ r.addrOf c + r.esize.toNat ≤ r.base.toNat + r.cap.toNat * r.esize.toNat := by
  have hs := h.slot_lt hc c
  have : (r.slot c).toNat * r.esize.toNat + r.esize.toNat ≤ r.cap.toNat * r.esize.toNat := by
    rw [← Nat.succ_mul]; exact Nat.mul_le_mul_right _ hs
  simp only [Regs.addrOf, Regs.saddr]
  omega

theorem Regs.Inv.addrOf_fits {r : Regs p} (h : r.Inv) (hc : r.cfg = true) (c : BitVec p.ctrW) :
    r.addrOf c + r.esize.toNat ≤ 2 ^ p.addrW :=
  (h.addrOf_add_le hc c).2.trans (h.region_le hc)

/-- Two counter values in different slots name disjoint byte ranges (20_memory.md R53). -/
theorem Regs.addrOf_disjoint (r : Regs p) {c d : BitVec p.ctrW} (hne : (r.slot c).toNat ≠ (r.slot d).toNat) :
    r.addrOf c + r.esize.toNat ≤ r.addrOf d ∨ r.addrOf d + r.esize.toNat ≤ r.addrOf c := by
  simp only [Regs.addrOf, Regs.saddr]
  rcases Nat.lt_or_gt_of_ne hne with hlt | hlt
  · left
    have := Nat.mul_le_mul_right r.esize.toNat (Nat.succ_le_of_lt hlt)
    rw [Nat.succ_mul] at this; omega
  · right
    have := Nat.mul_le_mul_right r.esize.toNat (Nat.succ_le_of_lt hlt)
    rw [Nat.succ_mul] at this; omega

/-- Two distances less than `CAP` from one counter value lead to the same slot only when they are equal. -/
theorem Regs.Inv.slot_add_inj {r : Regs p} (h : r.Inv) (hc : r.cfg = true) (c : BitVec p.ctrW) {i j : Nat}
    (hi : i < r.cap.toNat) (hj : j < r.cap.toNat)
    (heq : (r.slot (c + BitVec.ofNat p.ctrW i)).toNat = (r.slot (c + BitVec.ofNat p.ctrW j)).toNat) : i = j := by
  rw [h.slot_add_toNat hc, h.slot_add_toNat hc] at heq
  have : i ≡ j [MOD r.cap.toNat] := Nat.ModEq.add_left_cancel' _ heq
  exact Nat.ModEq.eq_of_lt_of_lt this hi hj

/-! ### Occupancy -/

/-- HEAD is TAIL advanced by OCC (10_state.md R30). -/
theorem Regs.tail_add_occ (r : Regs p) : r.tail + r.occ = r.head := by
  simp only [Regs.occ, BitVec.add_comm r.tail, BitVec.sub_add_cancel]

/-- The next write slot is the one `OCC` positions after the oldest element. -/
theorem Regs.enqAddr_eq_deqAddr (r : Regs p) (i : Nat) : r.enqAddr i = r.deqAddr (r.occ.toNat + i) := by
  have : r.head + BitVec.ofNat p.ctrW i = r.tail + BitVec.ofNat p.ctrW (r.occ.toNat + i) := by
    rw [BitVec.ofNat_add, BitVec.ofNat_toNat, BitVec.setWidth_eq, ← BitVec.add_assoc, r.tail_add_occ]
  simp only [Regs.enqAddr, Regs.deqAddr, this]

/-- `SPACE` as a number (10_state.md R32). -/
theorem Regs.Inv.space_toNat {r : Regs p} (h : r.Inv) (hc : r.cfg = true) :
    r.space.toNat = r.cap.toNat - r.occ.toNat := by
  have h1 := h.occ_le hc
  have h2 := r.cap.isLt
  simp only [Regs.space, BitVec.toNat_sub]
  rw [show 2 ^ p.ctrW - r.occ.toNat + r.cap.toNat = (r.cap.toNat - r.occ.toNat) + 2 ^ p.ctrW by omega,
    Nat.add_mod_right]
  exact Nat.mod_eq_of_lt (by omega)

/-- Advancing HEAD by `k` raises the occupancy by `k`, as long as that stays below `2^W`. -/
theorem Regs.occ_add_head (r : Regs p) {k : Nat} (hk : r.occ.toNat + k < 2 ^ p.ctrW) :
    (r.head + BitVec.ofNat p.ctrW k - r.tail).toNat = r.occ.toNat + k := by
  have : r.head + BitVec.ofNat p.ctrW k - r.tail = r.occ + BitVec.ofNat p.ctrW k := by
    simp only [Regs.occ, BitVec.sub_eq_add_neg, BitVec.add_assoc, BitVec.add_comm (BitVec.ofNat p.ctrW k)]
  rw [this, BitVec.toNat_add, BitVec.toNat_ofNat, Nat.add_mod_mod, Nat.mod_eq_of_lt hk]

/-- Advancing TAIL by `k` lowers the occupancy by `k`, for `k` at most the occupancy. -/
theorem Regs.occ_add_tail (r : Regs p) {k : Nat} (hk : k ≤ r.occ.toNat) :
    (r.head - (r.tail + BitVec.ofNat p.ctrW k)).toNat = r.occ.toNat - k := by
  have h2 := r.occ.isLt
  have : r.head - (r.tail + BitVec.ofNat p.ctrW k) = r.occ - BitVec.ofNat p.ctrW k := by
    simp only [Regs.occ, BitVec.sub_sub]
  rw [this, BitVec.toNat_sub, BitVec.toNat_ofNat, Nat.mod_eq_of_lt (by omega : k < 2 ^ p.ctrW),
    show 2 ^ p.ctrW - k + r.occ.toNat = (r.occ.toNat - k) + 2 ^ p.ctrW by omega, Nat.add_mod_right]
  exact Nat.mod_eq_of_lt (by omega)

theorem Regs.empty_iff (r : Regs p) : r.empty = true ↔ r.occ.toNat = 0 := by
  simp only [Regs.empty, decide_eq_true_eq]
  exact ⟨fun h => by simp [h], fun h => BitVec.eq_of_toNat_eq (by simpa using h)⟩

theorem Regs.full_iff (r : Regs p) : r.full = true ↔ r.occ.toNat = r.cap.toNat := by
  simp only [Regs.full, decide_eq_true_eq]
  exact ⟨fun h => by rw [h], BitVec.eq_of_toNat_eq⟩

/-- `EMPTY` holds exactly when `HEAD == TAIL` (10_state.md R33). -/
theorem Regs.empty_iff_head_eq_tail (r : Regs p) : r.empty = true ↔ r.head = r.tail := by
  rw [Regs.empty, decide_eq_true_iff, Regs.occ]
  refine ⟨fun h => ?_, fun h => by simp [h]⟩
  simpa using congrArg (· + r.tail) h

/-- `FULL` compares two `W`-bit values (10_state.md R34). -/
theorem Regs.full_iff_sub_eq_cap (r : Regs p) : r.full = true ↔ r.head - r.tail = r.cap := by
  rw [Regs.full, decide_eq_true_iff, Regs.occ]

end Sys2Proof.Machine
end

