-- ==== Sys2Proof/Laws/State.lean ====
section
/-! SUPPORT. One lemma for each field of the state under each state update, so that no proof unfolds a record update. -/

namespace Sys2Proof.Machine

@[simp] theorem State.withRegs_params (s : State) (r : Regs s.params) : (s.withRegs r).params = s.params := rfl
@[simp] theorem State.withRegs_regs (s : State) (r : Regs s.params) : (s.withRegs r).regs = r := rfl
@[simp] theorem State.withRegs_mem (s : State) (r : Regs s.params) : (s.withRegs r).mem = s.mem := rfl
@[simp] theorem State.withRegs_rsp (s : State) (r : Regs s.params) : (s.withRegs r).rsp = s.rsp := rfl
@[simp] theorem State.withRegs_rst (s : State) (r : Regs s.params) : (s.withRegs r).rst = s.rst := rfl
@[simp] theorem State.withRegs_backing (s : State) (r : Regs s.params) : (s.withRegs r).backing = s.backing := rfl
@[simp] theorem State.withRegs_stale (s : State) (r : Regs s.params) : (s.withRegs r).stale = s.stale := rfl
@[simp] theorem State.withRegs_foreignData (s : State) (r : Regs s.params) : (s.withRegs r).foreignData = s.foreignData := rfl
@[simp] theorem State.withRegs_inputs (s : State) (r : Regs s.params) : (s.withRegs r).inputs = s.inputs := rfl
@[simp] theorem State.withRegs_draws (s : State) (r : Regs s.params) : (s.withRegs r).draws = s.draws := rfl

@[simp] theorem State.withMem_params (s : State) (m : Memory) : (s.withMem m).params = s.params := rfl
@[simp] theorem State.withMem_regs (s : State) (m : Memory) : (s.withMem m).regs = s.regs := rfl
@[simp] theorem State.withMem_mem (s : State) (m : Memory) : (s.withMem m).mem = m := rfl
@[simp] theorem State.withMem_rsp (s : State) (m : Memory) : (s.withMem m).rsp = s.rsp := rfl
@[simp] theorem State.withMem_rst (s : State) (m : Memory) : (s.withMem m).rst = s.rst := rfl
@[simp] theorem State.withMem_backing (s : State) (m : Memory) : (s.withMem m).backing = s.backing := rfl
@[simp] theorem State.withMem_stale (s : State) (m : Memory) : (s.withMem m).stale = s.stale := rfl
@[simp] theorem State.withMem_foreignData (s : State) (m : Memory) : (s.withMem m).foreignData = s.foreignData := rfl
@[simp] theorem State.withMem_inputs (s : State) (m : Memory) : (s.withMem m).inputs = s.inputs := rfl
@[simp] theorem State.withMem_draws (s : State) (m : Memory) : (s.withMem m).draws = s.draws := rfl

@[simp] theorem State.respond_params (s : State) (ok : Bool) (val : BitVec s.params.ctrW) (rdata : List Elem) : (s.respond ok val rdata).params = s.params := rfl
@[simp] theorem State.respond_regs (s : State) (ok : Bool) (val : BitVec s.params.ctrW) (rdata : List Elem) : (s.respond ok val rdata).regs = s.regs := rfl
@[simp] theorem State.respond_mem (s : State) (ok : Bool) (val : BitVec s.params.ctrW) (rdata : List Elem) : (s.respond ok val rdata).mem = s.mem := rfl
@[simp] theorem State.respond_rsp (s : State) (ok : Bool) (val : BitVec s.params.ctrW) (rdata : List Elem) : (s.respond ok val rdata).rsp = some { ok := ok, val := val, r := rdata } := rfl
@[simp] theorem State.respond_rst (s : State) (ok : Bool) (val : BitVec s.params.ctrW) (rdata : List Elem) : (s.respond ok val rdata).rst = s.rst := rfl
@[simp] theorem State.respond_backing (s : State) (ok : Bool) (val : BitVec s.params.ctrW) (rdata : List Elem) : (s.respond ok val rdata).backing = s.backing := rfl
@[simp] theorem State.respond_stale (s : State) (ok : Bool) (val : BitVec s.params.ctrW) (rdata : List Elem) : (s.respond ok val rdata).stale = s.stale := rfl
@[simp] theorem State.respond_foreignData (s : State) (ok : Bool) (val : BitVec s.params.ctrW) (rdata : List Elem) : (s.respond ok val rdata).foreignData = s.foreignData := rfl
@[simp] theorem State.respond_inputs (s : State) (ok : Bool) (val : BitVec s.params.ctrW) (rdata : List Elem) : (s.respond ok val rdata).inputs = s.inputs := rfl
@[simp] theorem State.respond_draws (s : State) (ok : Bool) (val : BitVec s.params.ctrW) (rdata : List Elem) : (s.respond ok val rdata).draws = s.draws := rfl

@[simp] theorem State.fail_params (s : State) : (s.fail).params = s.params := rfl
@[simp] theorem State.fail_regs (s : State) : (s.fail).regs = s.regs := rfl
@[simp] theorem State.fail_mem (s : State) : (s.fail).mem = s.mem := rfl
@[simp] theorem State.fail_rsp (s : State) : (s.fail).rsp = some { ok := false, val := 0, r := [] } := rfl
@[simp] theorem State.fail_rst (s : State) : (s.fail).rst = s.rst := rfl
@[simp] theorem State.fail_backing (s : State) : (s.fail).backing = s.backing := rfl
@[simp] theorem State.fail_stale (s : State) : (s.fail).stale = s.stale := rfl
@[simp] theorem State.fail_foreignData (s : State) : (s.fail).foreignData = s.foreignData := rfl
@[simp] theorem State.fail_inputs (s : State) : (s.fail).inputs = s.inputs := rfl
@[simp] theorem State.fail_draws (s : State) : (s.fail).draws = s.draws := rfl

@[simp] theorem State.withInputs_params (s : State) (rest : List (Input s.params)) : (s.withInputs rest).params = s.params := rfl
@[simp] theorem State.withInputs_regs (s : State) (rest : List (Input s.params)) : (s.withInputs rest).regs = s.regs := rfl
@[simp] theorem State.withInputs_mem (s : State) (rest : List (Input s.params)) : (s.withInputs rest).mem = s.mem := rfl
@[simp] theorem State.withInputs_rsp (s : State) (rest : List (Input s.params)) : (s.withInputs rest).rsp = s.rsp := rfl
@[simp] theorem State.withInputs_rst (s : State) (rest : List (Input s.params)) : (s.withInputs rest).rst = s.rst := rfl
@[simp] theorem State.withInputs_backing (s : State) (rest : List (Input s.params)) : (s.withInputs rest).backing = s.backing := rfl
@[simp] theorem State.withInputs_stale (s : State) (rest : List (Input s.params)) : (s.withInputs rest).stale = s.stale := rfl
@[simp] theorem State.withInputs_foreignData (s : State) (rest : List (Input s.params)) : (s.withInputs rest).foreignData = s.foreignData := rfl
@[simp] theorem State.withInputs_inputs (s : State) (rest : List (Input s.params)) : (s.withInputs rest).inputs = rest := rfl
@[simp] theorem State.withInputs_draws (s : State) (rest : List (Input s.params)) : (s.withInputs rest).draws = s.draws := rfl

@[simp] theorem State.assertReset_params (s : State) : (s.assertReset).params = s.params := rfl
@[simp] theorem State.assertReset_regs (s : State) : (s.assertReset).regs = Regs.reset s.params := rfl
@[simp] theorem State.assertReset_mem (s : State) : (s.assertReset).mem = s.mem := rfl
@[simp] theorem State.assertReset_rsp (s : State) : (s.assertReset).rsp = none := rfl
@[simp] theorem State.assertReset_rst (s : State) : (s.assertReset).rst = true := rfl
@[simp] theorem State.assertReset_backing (s : State) : (s.assertReset).backing = s.backing := rfl
@[simp] theorem State.assertReset_stale (s : State) : (s.assertReset).stale = s.stale := rfl
@[simp] theorem State.assertReset_foreignData (s : State) : (s.assertReset).foreignData = s.foreignData := rfl
@[simp] theorem State.assertReset_inputs (s : State) : (s.assertReset).inputs = s.inputs := rfl
@[simp] theorem State.assertReset_draws (s : State) : (s.assertReset).draws = s.draws := rfl

@[simp] theorem State.releaseReset_params (s : State) : (s.releaseReset).params = s.params := rfl
@[simp] theorem State.releaseReset_regs (s : State) : (s.releaseReset).regs = Regs.reset s.params := rfl
@[simp] theorem State.releaseReset_mem (s : State) : (s.releaseReset).mem = s.mem := rfl
@[simp] theorem State.releaseReset_rsp (s : State) : (s.releaseReset).rsp = none := rfl
@[simp] theorem State.releaseReset_rst (s : State) : (s.releaseReset).rst = false := rfl
@[simp] theorem State.releaseReset_backing (s : State) : (s.releaseReset).backing = s.backing := rfl
@[simp] theorem State.releaseReset_stale (s : State) : (s.releaseReset).stale = s.stale := rfl
@[simp] theorem State.releaseReset_foreignData (s : State) : (s.releaseReset).foreignData = s.foreignData := rfl
@[simp] theorem State.releaseReset_inputs (s : State) : (s.releaseReset).inputs = s.inputs := rfl
@[simp] theorem State.releaseReset_draws (s : State) : (s.releaseReset).draws = s.draws := rfl

@[simp] theorem State.setBacking_params (s : State) (c : Backing) : (s.setBacking c).params = s.params := rfl
@[simp] theorem State.setBacking_regs (s : State) (c : Backing) : (s.setBacking c).regs = s.regs := rfl
@[simp] theorem State.setBacking_mem (s : State) (c : Backing) : (s.setBacking c).mem = s.mem := rfl
@[simp] theorem State.setBacking_rsp (s : State) (c : Backing) : (s.setBacking c).rsp = s.rsp := rfl
@[simp] theorem State.setBacking_rst (s : State) (c : Backing) : (s.setBacking c).rst = s.rst := rfl
@[simp] theorem State.setBacking_backing (s : State) (c : Backing) : (s.setBacking c).backing = c := rfl
@[simp] theorem State.setBacking_stale (s : State) (c : Backing) : (s.setBacking c).stale = (s.stale || decide (s.backing = .released)) := rfl
@[simp] theorem State.setBacking_foreignData (s : State) (c : Backing) : (s.setBacking c).foreignData = s.foreignData := rfl
@[simp] theorem State.setBacking_inputs (s : State) (c : Backing) : (s.setBacking c).inputs = s.inputs := rfl
@[simp] theorem State.setBacking_draws (s : State) (c : Backing) : (s.setBacking c).draws = s.draws := rfl

end Sys2Proof.Machine
end

