-- ==== Sys2Proof/Laws/Ops.lean ====
section
/-! SUPPORT. What each shared operation can do: the guard, the access check, the element transfers, and what they do to the stored
elements. -/

namespace Sys2Proof.Machine

variable {p : Params}

/-! ### The guard and the access check -/

theorem State.storageGone_eq_false {s : State} (hb : s.backing ≠ .released) (hs : s.stale = false) :
    s.storageGone = false := by simp [State.storageGone, hb, hs]

/-- Everything the guard can do, when it answers a next state: the command failed on a block that is not configured, or it
went on. -/
theorem State.useBuffer_eq_next {s t : State} {body : Result} (h : s.useBuffer body = .next t) :
    (s.regs.cfg = false ∧ t = s.fail) ∨ (s.regs.cfg = true ∧ s.storageGone = false ∧ body = .next t) := by
  unfold State.useBuffer at h
  split at h
  case isTrue hc => cases h; exact .inl ⟨hc, rfl⟩
  case isFalse hc =>
    split at h
    · cases h
    case isFalse hg => exact .inr ⟨by simpa using hc, by simpa using hg, h⟩

/-- While `CFG = 0` the guard fails the command (60_exceptions.md R152). -/
theorem State.useBuffer_unconfigured {s : State} (hc : s.regs.cfg = false) (body : Result) :
    s.useBuffer body = .next s.fail := if_pos hc

/-- After a release the guard refuses the command (00_scope.md R19). -/
theorem State.useBuffer_gone {s : State} (hc : s.regs.cfg = true) (hg : s.storageGone = true) (body : Result) :
    s.useBuffer body = .refused .storageReleased := by simp [State.useBuffer, hc, hg]

/-- On a configured buffer whose storage was not released the guard lets the command go on. -/
theorem State.useBuffer_ready {s : State} (hc : s.regs.cfg = true) (hg : s.storageGone = false) (body : Result) :
    s.useBuffer body = body := by simp [State.useBuffer, hc, hg]

@[simp] theorem State.access_nil (s done : State) : s.access [] done = .next done := rfl

/-- The access check only decides whether to go on. -/
theorem State.access_eq_next {s done t : State} {xs : List (Nat × Nat)} (h : s.access xs done = .next t) : t = done := by
  unfold State.access at h
  split_ifs at h <;> cases h <;> rfl

/-- On storage that answers without an error, accesses inside the address space go on. -/
theorem State.access_next {s done : State} {xs : List (Nat × Nat)} (hb : s.backing ≠ .erring)
    (hx : ∀ x ∈ xs, x.1 + x.2 ≤ 2 ^ s.params.addrW) : s.access xs done = .next done := by
  rw [State.access, if_neg hb, if_pos (List.all_eq_true.2 fun x hm => decide_eq_true (hx x hm)), ite_self]

/-- With some access to make, a storage error faults before anything is done. -/
theorem State.access_errs {s done : State} {x : Nat × Nat} {xs : List (Nat × Nat)} (hb : s.backing = .erring) :
    s.access (x :: xs) done = .fault .storageError := by simp [State.access, hb]

theorem Regs.Inv.enqAccesses_fit {r : Regs p} (h : r.Inv) (hc : r.cfg = true) (k : Nat) :
    ∀ x ∈ r.enqAccesses k, x.1 + x.2 ≤ 2 ^ p.addrW := by
  intro x hx
  obtain ⟨i, -, rfl⟩ := List.mem_map.1 hx
  exact h.addrOf_fits hc _

theorem Regs.Inv.deqAccesses_fit {r : Regs p} (h : r.Inv) (hc : r.cfg = true) (k : Nat) :
    ∀ x ∈ r.deqAccesses k, x.1 + x.2 ≤ 2 ^ p.addrW := by
  intro x hx
  obtain ⟨i, -, rfl⟩ := List.mem_map.1 hx
  exact h.addrOf_fits hc _

/-! ### The transfers -/

/-- What an enqueue leaves, when it answers a next state. -/
theorem State.enqueue_eq_next {s t : State} {es : List Elem} {val : Nat} (h : s.enqueue es val = .next t) :
    t = { s with
      mem := s.mem.writeCells (s.regs.enqCells 0 es)
      regs := { s.regs with head := s.regs.head + BitVec.ofNat s.params.ctrW es.length }
      rsp := some { ok := true, val := BitVec.ofNat s.params.ctrW val, r := [] } } := State.access_eq_next h

/-- An enqueue completes on storage that does not err. -/
theorem State.enqueue_next {s : State} (h : s.regs.Inv) (hc : s.regs.cfg = true) (hb : s.backing ≠ .erring)
    (es : List Elem) (val : Nat) :
    s.enqueue es val = .next { s with
      mem := s.mem.writeCells (s.regs.enqCells 0 es)
      regs := { s.regs with head := s.regs.head + BitVec.ofNat s.params.ctrW es.length }
      rsp := some { ok := true, val := BitVec.ofNat s.params.ctrW val, r := [] } } :=
  State.access_next hb (h.enqAccesses_fit hc _)

/-- What a dequeue leaves, when it answers a next state. -/
theorem State.dequeue_eq_next {s t : State} {k val : Nat} (h : s.dequeue k val = .next t) :
    t = { s with
      regs := { s.regs with tail := s.regs.tail + BitVec.ofNat s.params.ctrW k }
      rsp := some { ok := true, val := BitVec.ofNat s.params.ctrW val, r := s.regs.elemsFrom s.mem 0 k } } :=
  State.access_eq_next h

/-- A dequeue completes on storage that does not err. -/
theorem State.dequeue_next {s : State} (h : s.regs.Inv) (hc : s.regs.cfg = true) (hb : s.backing ≠ .erring)
    (k val : Nat) :
    s.dequeue k val = .next { s with
      regs := { s.regs with tail := s.regs.tail + BitVec.ofNat s.params.ctrW k }
      rsp := some { ok := true, val := BitVec.ofNat s.params.ctrW val, r := s.regs.elemsFrom s.mem 0 k } } :=
  State.access_next hb (h.deqAccesses_fit hc _)

/-! ### Stored elements -/

@[simp] theorem Regs.elemsFrom_length (r : Regs p) (m : Memory) (i k : Nat) : (r.elemsFrom m i k).length = k := by
  induction k generalizing i with
  | zero => rfl
  | succ k ih => simp [Regs.elemsFrom, ih]

theorem Regs.elemsFrom_add (r : Regs p) (m : Memory) (i k l : Nat) :
    r.elemsFrom m i (k + l) = r.elemsFrom m i k ++ r.elemsFrom m (i + k) l := by
  induction k generalizing i with
  | zero => simp [Regs.elemsFrom]
  | succ k ih =>
    rw [Nat.succ_add, Regs.elemsFrom, ih, Regs.elemsFrom, List.cons_append, Nat.add_assoc, Nat.add_comm 1 k]

theorem Regs.getElem?_elemsFrom (r : Regs p) (m : Memory) (i k j : Nat) :
    (r.elemsFrom m i k)[j]? = if j < k then some (r.elemAt m (i + j)) else none := by
  induction k generalizing i j with
  | zero => simp [Regs.elemsFrom]
  | succ k ih =>
    cases j with
    | zero => simp [Regs.elemsFrom]
    | succ j => simp [Regs.elemsFrom, ih, Nat.add_assoc, Nat.add_comm 1 j]

/-- Every element read from storage is ESIZE bytes long (00_scope.md R17). -/
theorem Regs.elemAt_length (r : Regs p) (m : Memory) (i : Nat) : (r.elemAt m i).length = r.esize.toNat :=
  Memory.readBytes_length ..

/-- A store of an enqueue goes to one of the write slots. -/
theorem Regs.mem_enqCells {r : Regs p} {i : Nat} {es : List Elem} {c : Host.Cell} (h : c ∈ r.enqCells i es) :
    ∃ k e, es[k]? = some e ∧ r.enqAddr (i + k) ≤ c.1 ∧ c.1 < r.enqAddr (i + k) + e.length := by
  induction es generalizing i with
  | nil => simp [Regs.enqCells] at h
  | cons e es ih =>
    rcases List.mem_append.1 h with h | h
    · exact ⟨0, e, by simp, mem_cellsAt h⟩
    · obtain ⟨k, e', he, hk⟩ := ih h
      exact ⟨k + 1, e', by simpa using he, by rwa [show i + (k + 1) = i + 1 + k by omega]⟩

/-- Every store of an enqueue lies inside the storage address space. -/
theorem Regs.Inv.enqCells_inSpace {r : Regs p} (h : r.Inv) (hc : r.cfg = true) {i : Nat} {es : List Elem}
    (hes : ∀ e ∈ es, e.length = r.esize.toNat) : ∀ c ∈ r.enqCells i es, c.1 < 2 ^ p.addrW := by
  intro c hcell
  obtain ⟨k, e, he, -, hlt⟩ := Regs.mem_enqCells hcell
  have := h.addrOf_fits hc (r.head + BitVec.ofNat p.ctrW (i + k))
  rw [hes e (List.mem_of_getElem? he)] at hlt
  exact hlt.trans_le this

/-- The byte ranges of two different logical positions below `CAP` are disjoint. -/
theorem Regs.Inv.deqAddr_disjoint {r : Regs p} (h : r.Inv) (hc : r.cfg = true) {i j : Nat} (hi : i < r.cap.toNat)
    (hj : j < r.cap.toNat) (hne : i ≠ j) :
    r.deqAddr i + r.esize.toNat ≤ r.deqAddr j ∨ r.deqAddr j + r.esize.toNat ≤ r.deqAddr i :=
  r.addrOf_disjoint fun heq => hne (h.slot_add_inj hc r.tail hi hj heq)

/-- Storing elements in the free slots leaves a stored element alone: a buffer never overwrites old data (00_scope.md
R9). -/
theorem Regs.Inv.elemAt_enqCells_old {r : Regs p} (h : r.Inv) (hc : r.cfg = true) (m : Memory) {i n : Nat}
    {es : List Elem} (hes : ∀ e ∈ es, e.length = r.esize.toNat) (hfit : r.occ.toNat + i + es.length ≤ r.cap.toNat)
    (hn : n < r.occ.toNat + i) : r.elemAt (m.writeCells (r.enqCells i es)) n = r.elemAt m n := by
  refine Memory.readBytes_congr fun j hj => Memory.read_writeCells_of_not_touched _ fun c hcell heq => ?_
  obtain ⟨k, e, he, hlo, hhi⟩ := Regs.mem_enqCells hcell
  have hk : k < es.length := (List.getElem?_eq_some_iff.1 he).1
  rw [hes e (List.mem_of_getElem? he)] at hhi
  rw [r.enqAddr_eq_deqAddr] at hlo hhi
  have := h.deqAddr_disjoint hc (i := n) (j := r.occ.toNat + (i + k)) (by omega) (by omega) (by omega)
  omega

/-- Storing elements in the free slots puts them after the stored ones, in order. -/
theorem Regs.Inv.elemsFrom_enqCells_new {r : Regs p} (h : r.Inv) (hc : r.cfg = true) (m : Memory) {i : Nat}
    {es : List Elem} (hes : ∀ e ∈ es, e.length = r.esize.toNat)
    (hfit : r.occ.toNat + i + es.length ≤ r.cap.toNat) :
    r.elemsFrom (m.writeCells (r.enqCells i es)) (r.occ.toNat + i) es.length = es := by
  induction es generalizing i m with
  | nil => rfl
  | cons e es ih =>
    have hes' := fun x hx => hes x (List.mem_cons_of_mem _ hx)
    have hfit' : r.occ.toNat + (i + 1) + es.length ≤ r.cap.toNat := by simp at hfit; omega
    simp only [Regs.enqCells, Memory.writeCells_append, List.length_cons, Regs.elemsFrom]
    rw [h.elemAt_enqCells_old hc _ hes' hfit' (by omega), Nat.add_assoc, ih _ hes' hfit']
    congr 1
    rw [Regs.elemAt, ← r.enqAddr_eq_deqAddr, ← hes e List.mem_cons_self, Memory.readBytes_writeCells_cellsAt]

/-- The elements at given positions after enqueuing: the old ones, then the new ones. -/
theorem Regs.Inv.elemsFrom_enqueue {r : Regs p} (h : r.Inv) (hc : r.cfg = true) (m : Memory) {es : List Elem}
    (hes : ∀ e ∈ es, e.length = r.esize.toNat) (hfit : r.occ.toNat + es.length ≤ r.cap.toNat) :
    r.elemsFrom (m.writeCells (r.enqCells 0 es)) 0 (r.occ.toNat + es.length)
      = r.elemsFrom m 0 r.occ.toNat ++ es := by
  rw [Regs.elemsFrom_add, Nat.zero_add]
  congr 1
  · refine List.ext_getElem? fun j => ?_
    simp only [Regs.getElem?_elemsFrom]
    split
    · rw [h.elemAt_enqCells_old hc m hes (by omega) (by omega)]
    · rfl
  · simpa using h.elemsFrom_enqCells_new hc m (i := 0) hes (by omega)

/-- Advancing TAIL by `k` shifts every logical position by `k`. -/
theorem Regs.elemsFrom_tail (r : Regs p) (m : Memory) (k i l : Nat) :
    Regs.elemsFrom { r with tail := r.tail + BitVec.ofNat p.ctrW k } m i l = r.elemsFrom m (k + i) l := by
  refine List.ext_getElem? fun j => ?_
  simp only [Regs.getElem?_elemsFrom, Regs.elemAt, Regs.deqAddr, Regs.addrOf, Regs.slot, Regs.mask, Regs.saddr]
  rw [BitVec.add_assoc, ← BitVec.ofNat_add, Nat.add_assoc]

end Sys2Proof.Machine
end

