-- ==== Sys2Proof/Laws/Exec.lean ====
section
/-! SUPPORT. What a command can do: the shape of every next state, and that INV and the storage form are kept. -/

namespace Sys2Proof.Machine

theorem dataShaped_iff {esize n : Nat} {data : List Elem} :
    dataShaped esize n data = true ↔ data.length = n ∧ ∀ e ∈ data, e.length = esize := by
  simp [dataShaped]

/-- The whole of what a command may change: the registers, the bytes it stores (`storedCells`), the response, and, for INIT
alone, that the buffer is a new one (`stale`). Everything else is left alone, and there is always exactly one response. -/
theorem exec_shape {i : Instr} {s t : State} (h : exec i s = .next t) :
    ∃ (r : Regs s.params) (x : Response s.params) (b : Bool),
      t = { s with regs := r, mem := s.mem.writeCells (storedCells i s), rsp := some x, stale := b } ∧
      (b = s.stale ∨ b = false ∧ ∃ base esize num, i = .init base esize num) := by
  have hfail : storedCells i s = [] → t = s.fail → ∃ (r : Regs s.params) (x : Response s.params) (b : Bool),
      t = { s with regs := r, mem := s.mem.writeCells (storedCells i s), rsp := some x, stale := b } ∧
      (b = s.stale ∨ b = false ∧ ∃ base esize num, i = .init base esize num) :=
    fun hc ht => ⟨s.regs, ⟨false, 0, []⟩, s.stale, by rw [hc, Memory.writeCells_nil, ht], .inl rfl⟩
  cases i with
  | init base esize num =>
    simp only [exec, execInit] at h
    split at h
    · cases h; exact ⟨_, _, false, by rw [storedCells, Memory.writeCells_nil], .inr ⟨rfl, _, _, _, rfl⟩⟩
    · cases h; exact hfail rfl rfl
  | enq data =>
    rcases State.useBuffer_eq_next h with ⟨hc, ht⟩ | ⟨hc, -, h⟩
    · exact hfail (by simp [storedCells, hc]) ht
    · split at h
      · cases h
      · split at h
        case isTrue hf => cases h; exact hfail (by simp [storedCells, hf]) rfl
        case isFalse hf =>
          have hcell : storedCells (.enq data) s = s.regs.enqCells 0 data := by simp [storedCells, hc, hf]
          rw [State.enqueue_eq_next h, hcell]
          exact ⟨_, _, _, rfl, .inl rfl⟩
  | deq =>
    rcases State.useBuffer_eq_next h with ⟨hc, ht⟩ | ⟨hc, -, h⟩
    · exact hfail rfl ht
    · split at h
      · cases h; exact hfail rfl rfl
      · rw [State.dequeue_eq_next h]; exact ⟨_, _, _, by rw [storedCells, Memory.writeCells_nil], .inl rfl⟩
  | peek idx =>
    rcases State.useBuffer_eq_next h with ⟨hc, ht⟩ | ⟨hc, -, h⟩
    · exact hfail rfl ht
    · split at h
      · cases h; exact hfail rfl rfl
      · rw [State.access_eq_next h]
        exact ⟨s.regs, _, _, by rw [storedCells, Memory.writeCells_nil], .inl rfl⟩
  | isempty =>
    rcases State.useBuffer_eq_next h with ⟨hc, ht⟩ | ⟨hc, -, h⟩
    · exact hfail rfl ht
    · cases h; exact ⟨s.regs, _, _, by rw [storedCells, Memory.writeCells_nil], .inl rfl⟩
  | isfull =>
    rcases State.useBuffer_eq_next h with ⟨hc, ht⟩ | ⟨hc, -, h⟩
    · exact hfail rfl ht
    · cases h; exact ⟨s.regs, _, _, by rw [storedCells, Memory.writeCells_nil], .inl rfl⟩
  | occ =>
    rcases State.useBuffer_eq_next h with ⟨hc, ht⟩ | ⟨hc, -, h⟩
    · exact hfail rfl ht
    · cases h; exact ⟨s.regs, _, _, by rw [storedCells, Memory.writeCells_nil], .inl rfl⟩
  | enqn n data =>
    rcases State.useBuffer_eq_next h with ⟨hc, ht⟩ | ⟨hc, -, h⟩
    · exact hfail (by simp [storedCells, hc]) ht
    · split at h
      · cases h
      · have hcell : storedCells (.enqn n data) s
            = s.regs.enqCells 0 (data.take (min n s.regs.space.toNat)) := by simp [storedCells, hc]
        rw [State.enqueue_eq_next h, hcell]
        exact ⟨_, _, _, rfl, .inl rfl⟩
  | deqn n =>
    rcases State.useBuffer_eq_next h with ⟨hc, ht⟩ | ⟨hc, -, h⟩
    · exact hfail rfl ht
    · rw [State.dequeue_eq_next h]; exact ⟨_, _, _, by rw [storedCells, Memory.writeCells_nil], .inl rfl⟩
  | reserved cmd =>
    simp only [exec, execReserved] at h
    cases h; exact hfail rfl rfl

/-! ### INV -/

/-- A register file with the same configuration and an occupancy in range satisfies INV. -/
theorem Regs.Inv.of_occ {p : Params} {r : Regs p} (h : r.Inv) (hc : r.cfg = true) {hd tl : BitVec p.ctrW}
    (ho : (hd - tl).toNat ≤ r.cap.toNat) : Regs.Inv { r with head := hd, tail := tl } :=
  ⟨fun h' => by simp [hc] at h', fun _ =>
    ⟨(h.2 hc).1, h.esize_pos hc, h.capPow hc, h.region_le hc, ho⟩⟩

theorem Regs.Inv.enqueued {p : Params} {r : Regs p} (h : r.Inv) (hc : r.cfg = true) {k : Nat}
    (hk : r.occ.toNat + k ≤ r.cap.toNat) : Regs.Inv { r with head := r.head + BitVec.ofNat p.ctrW k } := by
  have := r.cap.isLt
  exact h.of_occ hc (tl := r.tail) (by rw [r.occ_add_head (by omega)]; exact hk)

theorem Regs.Inv.dequeued {p : Params} {r : Regs p} (h : r.Inv) (hc : r.cfg = true) {k : Nat}
    (hk : k ≤ r.occ.toNat) : Regs.Inv { r with tail := r.tail + BitVec.ofNat p.ctrW k } := by
  have := h.occ_le hc
  exact h.of_occ hc (hd := r.head) (by rw [r.occ_add_tail hk]; omega)

/-- One element fits when the buffer is not full. -/
theorem Regs.Inv.occ_lt_of_not_full {p : Params} {r : Regs p} (h : r.Inv) (hc : r.cfg = true) (hf : ¬ r.full = true) :
    r.occ.toNat < r.cap.toNat := by
  have h1 := h.occ_le hc
  have h2 := mt r.full_iff.2 hf
  omega

/-- `min(n, SPACE)` elements fit. -/
theorem Regs.Inv.occ_add_min_space {p : Params} {r : Regs p} (h : r.Inv) (hc : r.cfg = true) (n : Nat) :
    r.occ.toNat + min n r.space.toNat ≤ r.cap.toNat := by
  have h1 := h.occ_le hc
  rw [h.space_toNat hc]
  omega

end Sys2Proof.Machine
end

