-- ==== Sys2Proof/Laws/PerInstr.lean ====
section
/-! SUPPORT. What holds of every command as syntax, one lemma for each constructor. -/

namespace Sys2Proof.Laws.CommandByte

/-- The command byte that the encoder writes selects the row of the command's own opcode (30_encoding.md R75, R78). -/
def Statement (i : Instr) : Prop :=
  ∀ p : Params, i.wellFormed p = true → decodeCmd (encode p i).cmd = i.opcode

/-- The opcode map read both ways (30_encoding.md R75). -/
theorem decodeCmd_cmd (o : Opcode) : decodeCmd o.cmd = some o := by cases o <;> decide

theorem init (base esize num : Nat) : Statement (.init base esize num) := fun _ _ => decodeCmd_cmd .init

theorem enq (data : List Elem) : Statement (.enq data) := fun _ _ => decodeCmd_cmd .enq

theorem deq : Statement .deq := fun _ _ => decodeCmd_cmd .deq

theorem peek (idx : Nat) : Statement (.peek idx) := fun _ _ => decodeCmd_cmd .peek

theorem isempty : Statement .isempty := fun _ _ => decodeCmd_cmd .isempty

theorem isfull : Statement .isfull := fun _ _ => decodeCmd_cmd .isfull

theorem occ : Statement .occ := fun _ _ => decodeCmd_cmd .occ

theorem enqn (n : Nat) (data : List Elem) : Statement (.enqn n data) := fun _ _ => decodeCmd_cmd .enqn

theorem deqn (n : Nat) : Statement (.deqn n) := fun _ _ => decodeCmd_cmd .deqn

theorem reserved (cmd : BitVec 8) : Statement (.reserved cmd) := fun _ h => Option.isNone_iff_eq_none.1 h

end Sys2Proof.Laws.CommandByte
end

