-- ==== Sys2Proof/Laws/Step.lean ====
section
/-! SUPPORT. What one step does, input by input, with the taken input gone from the list and no record update left to
unfold; and that a race and an abandoned command keep the storage form. -/

namespace Sys2Proof.Machine

/-- A step on a state that satisfies INV takes the next input. -/
theorem step_input {s : State} {x : Input s.params} {rest : List (Input s.params)} (hI : s.regs.Inv)
    (hi : s.inputs = x :: rest) : step s = takeInput { s with inputs := rest } x := by
  simp only [step, if_pos hI, takeNext, hi]

/-- With no input the block waits. -/
theorem step_idle {s : State} (hI : s.regs.Inv) (hi : s.inputs = []) : step s = .next s := by
  simp only [step, if_pos hI, takeNext, hi]

/-- A step that answers anything but the INV refusal starts from a state that satisfies INV. -/
theorem inv_of_step_eq_next {s t : State} (h : step s = .next t) : s.regs.Inv := by
  by_contra hI
  simp [step, if_neg hI] at h

/-- The stores a command makes depend on the registers alone. -/
@[simp] theorem storedCells_of_regs (i : Instr) (s : State) (m : Memory) (x : Option (Response s.params)) (b : Bool)
    (k : Backing) (g : Bool) (f : List Byte) (rest : List (Input s.params)) (n : Nat) :
    storedCells i ⟨s.params, s.regs, m, x, b, k, g, f, rest, n⟩ = storedCells i s := by
  cases i <;> rfl

theorem mem_apart {cs ds : List Host.Cell} {c : Host.Cell} : c ∈ apart cs ds ↔ c ∈ cs ∧ touches ds c.1 = false := by
  simp [apart]

theorem mem_clashing {cs ds : List Host.Cell} {c : Host.Cell} : c ∈ clashing cs ds ↔ c ∈ cs ∧ touches ds c.1 = true := by
  simp [clashing]

theorem touches_eq_false {cs : List Host.Cell} {a : Nat} : touches cs a = false ↔ ∀ c ∈ cs, c.1 ≠ a := by
  simp [touches]

/-- Every store of another agent lies inside the storage address space, because its address is `AW` bits wide. -/
theorem foreignCells_inSpace {p : Params} (cells : List (BitVec p.addrW × Byte)) :
    ∀ c ∈ foreignCells cells, c.1 < 2 ^ p.addrW := by
  intro c hc
  obtain ⟨x, -, rfl⟩ := List.mem_map.1 hc
  exact x.1.isLt

/-- A command that other agents' accesses overlap, when it answers a next state: the command's own next state over the drawn
storage, with the storage, the drawn reads and the draw counter as the race leaves them. -/
theorem raceCommand_eq_next {i : Instr} {s t : State} {o : Foreign s.params} (h : raceCommand i s o = .next t) :
    ∃ (u : State) (d : List Byte) (n : Nat),
      exec i { s with mem := drawCells s.mem s.draws (foreignCells o.writes) } = .next u ∧
      t = { u with
        mem := drawCells
          (s.mem.writeCells (apart (storedCells i s) (foreignCells o.writes)
            ++ apart (foreignCells o.writes) (storedCells i s)))
          (s.draws + (foreignCells o.writes).length)
          (clashing (storedCells i s) (foreignCells o.writes) ++ clashing (foreignCells o.writes) (storedCells i s))
        foreignData := d, draws := n } ∧
      d = drawReads s.mem (storedCells i s ++ foreignCells o.writes)
        (s.draws + 2 * (foreignCells o.writes).length + (storedCells i s).length) (o.reads.map BitVec.toNat) := by
  simp only [raceCommand] at h
  split at h
  next u hu => cases h; exact ⟨u, _, _, hu, rfl, rfl⟩
  · cases h
  · cases h

end Sys2Proof.Machine
end

