-- ==== Sys2Proof/Tests/Slice0.lean ====
section
/-! SUPPORT. Tests: expected values are the spec's own (95_test_vectors.md, with the vector's id) or its encodings (30_encoding.md
R72, R75). Then one witness for the hypotheses of each statement. -/

namespace Sys2Proof.Tests

open Sys2Proof Sys2Proof.Machine

/-! ### States and views -/

/-- `AW = 32` and `W = 8`, the widths of the wraparound vectors. -/
def narrow : Params := ⟨8, 32, by decide, by decide⟩

/-- A configured buffer. -/
def buffer (p : Params) (base esize cap hd tl : Nat) (mem : Memory) : State :=
  { State.resetAt p with
    regs := ⟨BitVec.ofNat _ hd, BitVec.ofNat _ tl, BitVec.ofNat _ base, BitVec.ofNat _ esize, BitVec.ofNat _ cap, true⟩
    mem := mem }

/-- The base configuration `A1` of the vectors at `W = 32`. -/
def wide (hd tl : Nat) (mem : Memory) : State := buffer Params.vectors 0x1000 1 16 hd tl mem

/-- The base configuration `A1` at `W = 8`. -/
def short (hd tl : Nat) (mem : Memory) : State := buffer narrow 0x1000 1 16 hd tl mem

/-- A state with inputs to take. -/
def offered (s : State) (xs : List (Input s.params)) : State := { s with inputs := xs }

/-- A state whose storage is in a condition, and whether it was released since INIT. -/
def stored (s : State) (condition : Backing) (stale : Bool) : State := { s with backing := condition, stale := stale }

/-- The registers of a result, in the order the vectors write: CFG, BASE, ESIZE, CAP, HEAD, TAIL. -/
def regsOf : Result → List Nat
  | .next t => [RegId.cfg, .base, .esize, .cap, .head, .tail].map t.regs.value
  | .fault _ => []
  | .refused _ => []

/-- The listed storage of a result. -/
def memOf : Result → Memory
  | .next t => t.mem
  | .fault _ => []
  | .refused _ => []

/-- The status outputs of a result: CFG_O, EMPTY_O, FULL_O. -/
def outputsOf : Result → List Bool
  | .next t => [t.cfgO, t.emptyO, t.fullO]
  | .fault _ => []
  | .refused _ => []

/-- Why a result gives the run no meaning. -/
def refusalOf : Result → Option Refusal
  | .next _ => none
  | .fault _ => none
  | .refused r => some r

/-- The result is a next state. -/
def isNext : Result → Bool
  | .next _ => true
  | .fault _ => false
  | .refused _ => false

theorem next_of_isNext {r : Result} (h : isNext r = true) : ∃ t, r = .next t := by
  cases r with
  | next t => exact ⟨t, rfl⟩
  | fault _ => cases h
  | refused _ => cases h

/-! ### WellFormed refuses an ill-formed term for each check -/

theorem test_wellFormed_init_base : (Instr.init (2 ^ 32) 1 16).wellFormed Params.vectors = false := by decide
theorem test_wellFormed_init_esize : (Instr.init 0x1000 (2 ^ 32) 16).wellFormed Params.vectors = false := by decide
theorem test_wellFormed_init_num : (Instr.init 0x1000 1 (2 ^ 32)).wellFormed Params.vectors = false := by decide
theorem test_wellFormed_peek : (Instr.peek 256).wellFormed narrow = false := by decide
theorem test_wellFormed_enqn : (Instr.enqn 256 []).wellFormed narrow = false := by decide
theorem test_wellFormed_deqn : (Instr.deqn 256).wellFormed narrow = false := by decide
theorem test_wellFormed_reserved : (Instr.reserved 0x03).wellFormed narrow = false := by decide

/-- The shape of the write data (R77) is checked against ESIZE: a 2-byte element where ESIZE is 1 (EQ8), and one element too
few. -/
theorem test_shaped : (Instr.enq [[1, 2]]).shaped 1 = false ∧ (Instr.enqn 2 [[1]]).shaped 1 = false := by decide

/-! ### Decoding: RSV is bits 7 to 4 and OP bits 3 to 0 (R72, R75) -/

theorem test_decode_init :
    decode (⟨0b0000_0001, 0x1000, 1, 16, []⟩ : Request Params.vectors) = .init 0x1000 1 16 := by decide
theorem test_decode_enq : decode (⟨0b0000_0010, 9, 9, 9, [[42]]⟩ : Request Params.vectors) = .enq [[42]] := by decide
theorem test_decode_deq : decode (⟨0b0000_0011, 9, 9, 9, [[42]]⟩ : Request Params.vectors) = .deq := by decide
theorem test_decode_peek : decode (⟨0b0000_0100, 9, 4, 9, []⟩ : Request Params.vectors) = .peek 4 := by decide
theorem test_decode_isempty : decode (⟨0b0000_0101, 9, 9, 9, []⟩ : Request Params.vectors) = .isempty := by decide
theorem test_decode_isfull : decode (⟨0b0000_0110, 9, 9, 9, []⟩ : Request Params.vectors) = .isfull := by decide
theorem test_decode_occ : decode (⟨0b0000_0111, 9, 9, 9, []⟩ : Request Params.vectors) = .occ := by decide
theorem test_decode_enqn :
    decode (⟨0b0000_1000, 9, 2, 9, [[1], [2]]⟩ : Request Params.vectors) = .enqn 2 [[1], [2]] := by decide
theorem test_decode_deqn : decode (⟨0b0000_1001, 9, 5, 9, [[1]]⟩ : Request Params.vectors) = .deqn 5 := by decide

/-- The reserved values: OP 0 and 0xA to 0xF, and any byte with RSV nonzero, whatever its OP (RX1, RX2, RX3, RX5, RX6). -/
theorem test_decode_reserved :
    [0b0000_0000, 0b0000_1010, 0b0000_1111, 0b0001_0010, 0b1111_0001, 0b1000_0001].map
      (fun c => decode (bareRequest Params.vectors c)) =
    [.reserved 0x00, .reserved 0x0A, .reserved 0x0F, .reserved 0x12, .reserved 0xF1, .reserved 0x81] := by decide

theorem test_decodeTableWord :
    [0b0000_0001, 0b0000_0010, 0b0000_1001, 0b0001_0000].map (decodeTableWord 8) =
    [some (.init 0 0 0), some (.enq []), some (.deqn 0), some (.reserved 0x10)] ∧ decodeTableWord 16 1 = none := by decide

/-- R81: the text of a command, and of a response. -/
theorem test_toText :
    (Instr.init 4096 1 16).toText = "INIT 4096, 1, 16" ∧ (Instr.deqn 5).toText = "DEQN 5" ∧
    (⟨true, 16, []⟩ : Response narrow).toText = "-> ok=1 val=16 r=[]" := by decide

/-! ### The commands -/

/-- IN9: the region may end exactly at the top of the address space. -/
theorem test_init_to_the_top :
    regsOf (exec (.init 0xFFFFFFF0 1 16) State.reset) = [1, 0xFFFFFFF0, 1, 16, 0, 0] ∧
    responseOf (exec (.init 0xFFFFFFF0 1 16) State.reset) = some (true, 0, []) ∧
    regsOf (exec (.init 0xFFFFFFF1 1 16) State.reset) = [0, 0, 0, 0, 0, 0] := by decide

/-- IN12: a failed INIT leaves the old configuration and counters. -/
theorem test_init_failed :
    regsOf (exec (.init 0x1000 1 12) (wide 5 2 [])) = [1, 0x1000, 1, 16, 5, 2] ∧
    responseOf (exec (.init 0x1000 1 12) (wide 5 2 [])) = some (false, 0, []) := by decide

/-- EQ4: HEAD wraps and the buffer becomes full. -/
theorem test_enq_wraps :
    regsOf (exec (.enq [[0x55]]) (short 0xFF 0xF0 [])) = [1, 0x1000, 1, 16, 0, 0xF0] ∧
    memOf (exec (.enq [[0x55]]) (short 0xFF 0xF0 [])) = [(0x100F, 0x55)] ∧
    outputsOf (exec (.enq [[0x55]]) (short 0xFF 0xF0 [])) = [true, false, true] := by decide

/-- EQ6: the bytes of an element go to rising addresses. -/
theorem test_enq_bytes :
    memOf (exec (.enq [[0x0A, 0x0B, 0x0C]]) (buffer Params.vectors 0x2000 3 4 5 3 []))
      = [(0x2003, 0x0A), (0x2004, 0x0B), (0x2005, 0x0C)] := by decide

/-- DQ3: TAIL wraps. -/
theorem test_deq_wraps :
    responseOf (exec .deq (short 0x02 0xFF [(0x100F, 0x77)])) = some (true, 0, [[0x77]]) ∧
    regsOf (exec .deq (short 0x02 0xFF [(0x100F, 0x77)])) = [1, 0x1000, 1, 16, 2, 0] := by decide

/-- DQ1: an empty buffer. -/
theorem test_deq_empty :
    responseOf (exec .deq (wide 0 0 [])) = some (false, 0, []) ∧
    regsOf (exec .deq (wide 0 0 [])) = [1, 0x1000, 1, 16, 0, 0] := by decide

/-- PK5: `TAIL +w idx` wraps past `2^W`. -/
theorem test_peek_wraps :
    responseOf (exec (.peek 3) (short 0x04 0xFE [(0x1001, 0xA1)])) = some (true, 0, [[0xA1]]) := by decide

/-- PK6: the index must be below OCC, which is 6. -/
theorem test_peek_bounds :
    responseOf (exec (.peek 5) (short 0x04 0xFE [(0x1003, 0xA3)])) = some (true, 0, [[0xA3]]) ∧
    responseOf (exec (.peek 6) (short 0x04 0xFE [(0x1003, 0xA3)])) = some (false, 0, []) := by decide

/-- QY5 and QY3, and QY6 at reset. -/
theorem test_isempty :
    responseOf (exec .isempty (short 0x03 0x03 [])) = some (true, 1, []) ∧
    responseOf (exec .isempty (short 0x05 0xF5 [])) = some (true, 0, []) ∧
    responseOf (exec .isempty State.reset) = some (false, 0, []) := by decide

/-- QY3, and QY7 with one slot. -/
theorem test_isfull :
    responseOf (exec .isfull (short 0x05 0xF5 [])) = some (true, 1, []) ∧
    responseOf (exec .isfull (buffer Params.vectors 0x1000 1 1 1 0 [])) = some (true, 1, []) ∧
    responseOf (exec .isfull (wide 15 0 [])) = some (true, 0, []) := by decide

/-- QY4: the wrapping subtraction gives the true count. -/
theorem test_occ : responseOf (exec .occ (short 0x02 0xFA [])) = some (true, 8, []) := by decide

/-- BK4: six elements across the wrap of HEAD. -/
theorem test_enqn_wraps :
    responseOf (exec (.enqn 6 [[0x31], [0x32], [0x33], [0x34], [0x35], [0x36]]) (short 0xFC 0xF8 [])) = some (true, 6, []) ∧
    regsOf (exec (.enqn 6 [[0x31], [0x32], [0x33], [0x34], [0x35], [0x36]]) (short 0xFC 0xF8 []))
      = [1, 0x1000, 1, 16, 2, 0xF8] ∧
    memOf (exec (.enqn 6 [[0x31], [0x32], [0x33], [0x34], [0x35], [0x36]]) (short 0xFC 0xF8 []))
      = [(0x1000, 0x35), (0x1001, 0x36), (0x100C, 0x31), (0x100D, 0x32), (0x100E, 0x33), (0x100F, 0x34)] := by decide

/-- BK1: the surplus is discarded. -/
theorem test_enqn_surplus :
    responseOf (exec (.enqn 8 [[1], [2], [3], [4], [5], [6], [7], [8]]) (wide 10 0 [])) = some (true, 6, []) ∧
    memOf (exec (.enqn 8 [[1], [2], [3], [4], [5], [6], [7], [8]]) (wide 10 0 []))
      = [(0x100A, 1), (0x100B, 2), (0x100C, 3), (0x100D, 4), (0x100E, 5), (0x100F, 6)] := by decide

/-- BK5: the oldest elements in order, across the end of the region. -/
theorem test_deqn_order :
    responseOf (exec (.deqn 5) (wide 20 12
      [(0x1000, 0x20), (0x1001, 0x21), (0x100C, 0x1C), (0x100D, 0x1D), (0x100E, 0x1E), (0x100F, 0x1F)]))
      = some (true, 5, [[0x1C], [0x1D], [0x1E], [0x1F], [0x20]]) := by decide

/-- BK8: no more than OCC elements. -/
theorem test_deqn_capped :
    responseOf (exec (.deqn 100) (wide 3 0 [(0x1000, 4), (0x1001, 5), (0x1002, 6)])) = some (true, 3, [[4], [5], [6]]) ∧
    outputsOf (exec (.deqn 100) (wide 3 0 [(0x1000, 4), (0x1001, 5), (0x1002, 6)])) = [true, true, false] := by decide

/-- RX3: a reserved byte whose OP is that of ENQ stores nothing. -/
theorem test_reserved_enq :
    responseOf (exec (decode (⟨0x12, 0, 0, 0, [[5]]⟩ : Request Params.vectors)) (wide 0 0 [])) = some (false, 0, []) ∧
    memOf (exec (decode (⟨0x12, 0, 0, 0, [[5]]⟩ : Request Params.vectors)) (wide 0 0 [])) = [] := by decide

/-- RX5: a reserved byte whose OP is that of INIT configures nothing. -/
theorem test_reserved_init :
    regsOf (exec (decode (⟨0xF1, 0x1000, 1, 16, []⟩ : Request Params.vectors)) State.reset) = [0, 0, 0, 0, 0, 0] := by decide

/-! ### Steps -/

/-- A step from reset takes the offered request: `INIT 0x1000, 1, 16` (IN1). -/
theorem test_step_init :
    regsOf (step (offered State.reset [.command ⟨0x01, 0x1000, 1, 16, []⟩])) = [1, 0x1000, 1, 16, 0, 0] := by decide

/-- R19 with U5: after a release a query is refused though storage is backed again, and a successful INIT ends that. -/
theorem test_release :
    refusalOf (runSteps 3 (offered (wide 3 1 [])
      [.storage .released, .storage .backed, .command (bareRequest _ 0x07)])) = some .storageReleased ∧
    responseOf (runSteps 4 (offered (wide 3 1 [])
      [.storage .released, .storage .backed, .command ⟨0x01, 0x1000, 1, 4, []⟩, .command (bareRequest _ 0x07)]))
      = some (true, 0, []) := by decide

/-- The word of ENQ as the first command after reset fails, because CFG is 0 (RX4). -/
theorem test_step_word : responseOf (step (State.reset.withFetchWord 8 0x02)) = some (false, 0, []) := by decide

/-! ### Witnesses -/

theorem witness_OpcodeMapDecodes :
    [0x01, 0x02, 0x03, 0x04, 0x05, 0x06, 0x07, 0x08, 0x09].map (fun c => (bareRequest narrow c).cmd)
      = [0x01, 0x02, 0x03, 0x04, 0x05, 0x06, 0x07, 0x08, 0x09] ∧
    ((bareRequest narrow 0x00).cmd = 0x00) ∧
    (∀ c ∈ [(0x0A : BitVec 8), 0x0F], 0x0A ≤ (bareRequest narrow c).cmd.toNat ∧ (bareRequest narrow c).cmd.toNat ≤ 0x0F) := by
  decide

theorem witness_DecodeEncodeRoundTrip :
    ∀ i ∈ [Instr.init (2 ^ 32 - 1) 255 255, .enq [[1, 2]], .deq, .peek 255, .isempty, .isfull, .occ, .enqn 255 [[1]], .deqn 255,
      .reserved 0x10, .reserved 0x0A], i.wellFormed narrow = true := by decide

theorem witness_IgnoredOperandsHaveNoEffect :
    ∀ c ∈ [(0x00 : BitVec 8), 0x01, 0x02, 0x03, 0x04, 0x08, 0x09, 0x10], ∃ q q' : Request narrow,
      q ≠ q' ∧ q.cmd = c ∧ q.cmd = q'.cmd ∧ (q.cmd = 0x01 → q.a = q'.a ∧ q.b = q'.b ∧ q.c = q'.c) ∧
      (q.cmd = 0x02 → q.d = q'.d) ∧ (q.cmd = 0x04 → q.b = q'.b) ∧ (q.cmd = 0x08 → q.b = q'.b ∧ q.d = q'.d) ∧
      (q.cmd = 0x09 → q.b = q'.b) := by
  intro c hc
  by_cases h : c = 0x01
  · exact ⟨⟨c, 0, 0, 0, []⟩, ⟨c, 0, 0, 0, [[1]]⟩, by subst h; decide⟩
  · refine ⟨⟨c, 0, 0, 0, []⟩, ⟨c, 1, 0, 0, []⟩, ?_⟩
    revert h
    revert c
    decide

/-- A full buffer too, and a storage that errs. -/
theorem witness_MalformedRequestIsRefused :
    (∀ s ∈ [wide 16 0 [], stored (wide 16 0 []) .erring false],
      s.regs.cfg = true ∧ s.backing ≠ .released ∧ s.stale = false) ∧
    ((wide 0 0 []).regs.cfg = true ∧ ¬ (([[1], [2]] : List Elem).length = 1 ∧
      ∀ e ∈ ([[1], [2]] : List Elem), e.length = (wide 0 0 []).regs.esize.toNat)) ∧
    ¬ (([[1, 2]] : List Elem).length = 1 ∧ ∀ e ∈ ([[1, 2]] : List Elem), e.length = (wide 0 0 []).regs.esize.toNat) ∧
    ¬ (([[1]] : List Elem).length = (2 : BitVec 32).toNat ∧ ∀ e ∈ ([[1]] : List Elem), e.length = (wide 0 0 []).regs.esize.toNat) ∧
    State.reset.regs.cfg = false ∧ (0x00 : BitVec 8).toNat < 1 ∧ 9 < (0x0A : BitVec 8).toNat := by decide

theorem witness_ReservedEncodingFails :
    (0x10 : BitVec 8).extractLsb' 4 4 ≠ 0 ∧ (0x00 : BitVec 8).extractLsb' 0 4 = 0 ∧
    0xA ≤ ((0x0A : BitVec 8).extractLsb' 0 4).toNat := by decide

theorem witness_StepRunsDecodedCommand :
    (offered (wide 15 0 []) [.command ⟨0x02, 0, 0, 0, [[7]]⟩, .rst true]).regs.Inv ∧
    (offered (wide 15 0 []) [.command ⟨0x02, 0, 0, 0, [[7]]⟩, .rst true]).rst = false ∧
    (offered (wide 15 0 []) [.command ⟨0x02, 0, 0, 0, [[7]]⟩, .rst true]).inputs
      = .command ⟨0x02, 0, 0, 0, [[7]]⟩ :: [.rst true] := by decide

theorem witness_StepsRunTheCommandStream :
    (offered State.reset [.command ⟨0x01, 0x1000, 1, 4, []⟩, .command ⟨0x02, 0, 0, 0, [[7]]⟩, .rst true]).regs.Inv ∧
    (offered State.reset [.command ⟨0x01, 0x1000, 1, 4, []⟩, .command ⟨0x02, 0, 0, 0, [[7]]⟩, .rst true]).rst = false ∧
    (offered State.reset [.command ⟨0x01, 0x1000, 1, 4, []⟩, .command ⟨0x02, 0, 0, 0, [[7]]⟩, .rst true]).inputs
      = [⟨0x01, 0x1000, 1, 4, []⟩, ⟨0x02, 0, 0, 0, [[7]]⟩].map Input.command ++ [.rst true] := by decide

theorem witness_ResetInput :
    (wide 3 1 []).assertReset.rst = true ∧
    ((offered (wide 3 1 []) [.rst true]).regs.Inv ∧ (offered (wide 3 1 []) [.rst true]).inputs = .rst true :: []) ∧
    ((offered (wide 3 1 []).assertReset [.rst false]).regs.Inv ∧ (offered (wide 3 1 []).assertReset [.rst false]).rst = true ∧
      (offered (wide 3 1 []).assertReset [.rst false]).inputs = .rst false :: []) ∧
    ((offered (wide 3 1 []) [.abandonedCommand ⟨0x02, 0, 0, 0, [[7]]⟩ ⟨[], []⟩]).regs.Inv ∧
      (offered (wide 3 1 []) [.abandonedCommand ⟨0x02, 0, 0, 0, [[7]]⟩ ⟨[], []⟩]).rst = false ∧
      (offered (wide 3 1 []) [.abandonedCommand ⟨0x02, 0, 0, 0, [[7]]⟩ ⟨[], []⟩]).inputs
        = .abandonedCommand ⟨0x02, 0, 0, 0, [[7]]⟩ ⟨[], []⟩ :: [] ∧
      isNext (exec (decode (⟨0x02, 0, 0, 0, [[7]]⟩ : Request Params.vectors)) (offered (wide 3 1 []) [])) = true) ∧
    State.reset.regs = Regs.reset State.reset.params := by decide

theorem witness_StepKeepsGood :
    (offered (wide 15 0 [(0x100F, 1)]) [.command ⟨0x02, 0, 0, 0, [[7]]⟩]).Good ∧
    isNext (step (offered (wide 15 0 [(0x100F, 1)]) [.command ⟨0x02, 0, 0, 0, [[7]]⟩])) = true := by decide

theorem witness_StateOutsideInvariantIsRefused : ¬ (wide 17 0 []).regs.Inv := by decide

theorem witness_RegistersWrittenOnlyByTheMap :
    (offered (wide 3 1 []) [.command ⟨0x02, 0, 0, 0, [[7]]⟩]).inputs = .command ⟨0x02, 0, 0, 0, [[7]]⟩ :: [] ∧
    isNext (step (offered (wide 3 1 []) [.command ⟨0x02, 0, 0, 0, [[7]]⟩])) = true := by decide

/-- Also at the largest capacity, `2^(W-1)`, and at `n = CAP`. -/
theorem witness_WraparoundLaw :
    (buffer narrow 0x1000 1 128 0x80 0 []).regs.Inv ∧ (buffer narrow 0x1000 1 128 0x80 0 []).regs.cfg = true ∧
    128 ≤ (buffer narrow 0x1000 1 128 0x80 0 []).regs.cap.toNat := by decide

theorem witness_EmptyAndFullAreExclusive :
    (short 0x03 0x03 []).regs.Inv ∧ (short 0x03 0x03 []).regs.cfg = true ∧ (short 0x05 0xF5 []).regs.Inv := by decide

theorem witness_StatusOutputsFollowTheRegisters :
    State.reset.regs.value .cfg = 0 ∧ (wide 0 0 []).regs.value .cfg = 1 := by decide

/-- The region ends exactly at `2^AW`. -/
theorem witness_SlotsTileTheRegion :
    (buffer Params.vectors 0xFFFFFFF0 1 16 0 0 []).regs.Inv ∧ (buffer Params.vectors 0xFFFFFFF0 1 16 0 0 []).regs.cfg = true ∧
    (15 : Nat) < (buffer Params.vectors 0xFFFFFFF0 1 16 0 0 []).regs.cap.toNat := by decide

theorem witness_CommandFrame : isNext (exec (.enqn 2 [[1], [2]]) (wide 15 0 [])) = true := by decide

theorem witness_NoAccessOutsideTheSpace : (buffer Params.vectors 0xFFFFFFF0 1 16 15 0 []).regs.Inv := by decide

/-- Clause 1 at a released storage, at one that is backed again, and at one that errs since. -/
theorem witness_StorageConditionStopsAccesses_released :
    (∀ s ∈ [stored (wide 7 7 []) .released false, stored (wide 7 7 []) .backed true, stored (wide 7 7 []) .erring true],
      s.regs.Inv ∧ s.regs.cfg = true ∧ (s.backing = .released ∨ s.stale = true)) ∧
    ∀ i ∈ [Instr.enq [[7]], .deq, .peek 0, .isempty, .isfull, .occ, .enqn 0 [], .deqn 0],
      i.usesBuffer = true ∧ i.shaped (wide 7 7 []).regs.esize.toNat = true := by decide

/-- Clause 2: each kind of access, with one free slot and with one index below OCC. -/
theorem witness_StorageConditionStopsAccesses_erring :
    (stored (wide 15 0 []) .erring false).regs.Inv ∧ (stored (wide 15 0 []) .erring false).regs.cfg = true ∧
    (wide 15 0 []).regs.occ ≠ (wide 15 0 []).regs.cap ∧ (wide 15 0 []).regs.occ ≠ 0 ∧
    14 < (wide 15 0 []).regs.occ.toNat ∧
    1 ≤ min 1 ((wide 15 0 []).regs.cap.toNat - (wide 15 0 []).regs.occ.toNat) ∧
    1 ≤ min 1 (wide 15 0 []).regs.occ.toNat ∧
    (∀ i ∈ [Instr.enq [[7]], .enqn 1 [[7]], .deq, .peek 14, .deqn 1],
      i.shaped (wide 15 0 []).regs.esize.toNat = true) := by decide

/-- Clause 3: CFG is 0 on a released storage; INIT and a reserved encoding; and DEQ of an empty buffer, which makes no access. -/
theorem witness_StorageConditionStopsAccesses_none :
    ((stored State.reset .released true).regs.Inv ∧ (stored State.reset .released true).regs.cfg = false) ∧
    (∀ i ∈ [Instr.init 0 0 0, .reserved 0], i.usesBuffer = false ∧ i.shaped 1 = true) ∧
    ((stored (wide 7 7 []) .erring false).regs.Inv ∧ (stored (wide 7 7 []) .erring false).backing ≠ .released ∧
      (stored (wide 7 7 []) .erring false).stale = false ∧ ¬ ((wide 7 7 []).regs.occ ≠ 0) ∧
      Instr.deq.shaped (wide 7 7 []).regs.esize.toNat = true) := by decide

theorem witness_ReleaseLastsUntilInit :
    ((offered (wide 3 1 []) [.storage .released]).regs.Inv ∧
      (offered (wide 3 1 []) [.storage .released]).inputs = .storage .released :: []) ∧
    ((stored (offered (wide 3 1 []) [.storage .backed]) .released false).backing = .released ∧
      isNext (step (stored (offered (wide 3 1 []) [.storage .backed]) .released false)) = true) ∧
    ((stored (offered (wide 3 1 []) [.command ⟨0x01, 0x1000, 1, 4, []⟩]) .backed true).stale = true ∧
      isNext (step (stored (offered (wide 3 1 []) [.command ⟨0x01, 0x1000, 1, 4, []⟩]) .backed true)) = true) := by decide

theorem witness_ForeignAccessBetweenCommands :
    ((offered (wide 3 1 []) [.foreignWrite [(0x1001, 9)]]).regs.Inv ∧
      (offered (wide 3 1 []) [.foreignWrite [(0x1001, 9)]]).inputs = .foreignWrite [(0x1001, 9)] :: []) ∧
    ((offered (wide 3 1 []) [.foreignRead [0x1001]]).regs.Inv ∧
      (offered (wide 3 1 []) [.foreignRead [0x1001]]).inputs = .foreignRead [0x1001] :: []) := by decide

theorem witness_RacingBytesAreOldOrNew :
    (offered (wide 3 1 []) [.racingCommand ⟨0x02, 0, 0, 0, [[7]]⟩ ⟨[(0x1003, 9)], [0x1003]⟩]).rst = false ∧
    (offered (wide 3 1 []) [.racingCommand ⟨0x02, 0, 0, 0, [[7]]⟩ ⟨[(0x1003, 9)], [0x1003]⟩]).inputs
      = .racingCommand ⟨0x02, 0, 0, 0, [[7]]⟩ ⟨[(0x1003, 9)], [0x1003]⟩ :: [] ∧
    ∃ t, step (offered (wide 3 1 []) [.racingCommand ⟨0x02, 0, 0, 0, [[7]]⟩ ⟨[(0x1003, 9)], [0x1003]⟩]) = .next t :=
  ⟨rfl, rfl, _, rfl⟩

/-- IN9 at the boundary of the fit condition, IN10 one past it. -/
theorem witness_InitEffect :
    ((0xFFFFFFF0 : BitVec 32) ≠ 0 ∧ 1 ≤ (1 : BitVec 32).toNat ∧ (16 : BitVec 32) ≠ 0 ∧ ((16 : BitVec 32) - 1) &&& 16 = 0 ∧
      (0xFFFFFFF0 : BitVec 32).toNat + (16 : BitVec 32).toNat * (1 : BitVec 32).toNat ≤ 2 ^ 32) ∧
    ¬ ((0xFFFFFFF1 : BitVec 32).toNat + (16 : BitVec 32).toNat * (1 : BitVec 32).toNat ≤ 2 ^ 32) := by decide

theorem witness_InitEmptiesTheQueue :
    isNext (exec (.init 0x2000 2 8) (wide 5 2 [])) = true ∧
    responseOf (exec (.init 0x2000 2 8) (wide 5 2 [])) = some (true, 0, []) := by decide

/-- Clause 1 at reset, clause 2 on a full buffer, clause 3 with one slot left. -/
theorem witness_EnqEffect :
    (⟨0x02, 0, 0, 0, [[7]]⟩ : Request Params.vectors).cmd = 0x02 ∧ State.reset.regs.cfg = false ∧
    ((wide 16 0 []).regs.cfg = true ∧ (wide 16 0 []).backing ≠ .released ∧ (wide 16 0 []).stale = false ∧ ([7] : Elem).length = (wide 16 0 []).regs.esize.toNat ∧
      (wide 16 0 []).regs.head - (wide 16 0 []).regs.tail = (wide 16 0 []).regs.cap) ∧
    ((wide 15 0 []).regs.Inv ∧ (wide 15 0 []).regs.cfg = true ∧ (wide 15 0 []).backing = .backed ∧ (wide 15 0 []).stale = false ∧
      ([7] : Elem).length = (wide 15 0 []).regs.esize.toNat ∧
      (wide 15 0 []).regs.head - (wide 15 0 []).regs.tail ≠ (wide 15 0 []).regs.cap) := by decide

theorem witness_DeqEffect :
    State.reset.regs.cfg = false ∧
    ((wide 7 7 []).backing ≠ .released ∧ (wide 7 7 []).stale = false ∧ (wide 7 7 []).regs.head - (wide 7 7 []).regs.tail = 0) ∧
    ((wide 8 7 []).regs.Inv ∧ (wide 8 7 []).regs.cfg = true ∧ (wide 8 7 []).backing = .backed ∧ (wide 8 7 []).stale = false ∧
      (wide 8 7 []).regs.head - (wide 8 7 []).regs.tail ≠ 0) := by decide

/-- The last index in range is OCC - 1 and the first out of range is OCC. -/
theorem witness_PeekEffect :
    State.reset.regs.cfg = false ∧ ((short 0x04 0xFE []).backing ≠ .released ∧ (short 0x04 0xFE []).stale = false) ∧
    ((wide 7 7 []).regs.head - (wide 7 7 []).regs.tail = 0) ∧
    ((short 0x04 0xFE []).regs.head - (short 0x04 0xFE []).regs.tail).toNat ≤ (6 : BitVec 8).toNat ∧
    ((short 0x04 0xFE []).regs.Inv ∧ (short 0x04 0xFE []).regs.cfg = true ∧ (short 0x04 0xFE []).backing = .backed ∧ (short 0x04 0xFE []).stale = false ∧
      (5 : BitVec 8).toNat < ((short 0x04 0xFE []).regs.head - (short 0x04 0xFE []).regs.tail).toNat) := by decide

theorem witness_PeekAgreesWithDequeues :
    (short 0x04 0xFE []).Usable ∧ 5 < (short 0x04 0xFE []).regs.occ.toNat := by decide

/-- On a full buffer: the queries, a PEEK, a reserved encoding, a failed ENQ and INIT, and ENQN and DEQN that move nothing. On
an empty buffer: a failed DEQ, and a DEQN of an element that is not there. -/
theorem witness_PeekIsIdempotent :
    (noneMutates [.occ, .peek 0, .isfull, .isempty, .reserved 0, .enq [[1]], .init 0 0 0, .enqn 1 [[1]], .deqn 0]
      (wide 16 0 []) = true ∧
      isNext (runCommands [.occ, .peek 0, .isfull, .isempty, .reserved 0, .enq [[1]], .init 0 0 0, .enqn 1 [[1]], .deqn 0]
        (wide 16 0 [])) = true) ∧
    (noneMutates [.deq, .deqn 1] (wide 7 7 []) = true ∧ isNext (runCommands [.deq, .deqn 1] (wide 7 7 [])) = true) := by
  decide

/-- One command for each of the three cases. -/
theorem witness_NothingMovedNothingChanged :
    ((Instr.peek 0).readOnly = true ∧ isNext (exec (.peek 0) (wide 5 0 [])) = true) ∧
    responseOf (exec (.enq [[1]]) (wide 16 0 [])) = some (false, 0, []) ∧
    ((Instr.enqn 1 [[1]]).isInit = false ∧ elemsStored (.enqn 1 [[1]]) (wide 16 0 []) = 0 ∧
      elemsRemoved (.enqn 1 [[1]]) (wide 16 0 []) = 0 ∧ isNext (exec (.enqn 1 [[1]]) (wide 16 0 [])) = true) := by decide

theorem witness_queries :
    State.reset.regs.cfg = false ∧ (wide 16 0 []).regs.cfg = true ∧ (wide 16 0 []).regs.Inv ∧
    (wide 16 0 []).backing ≠ .released ∧ (wide 16 0 []).stale = false ∧ (stored (wide 16 0 []) .erring false).backing ≠ .released ∧
    [0x05, 0x06, 0x07].map (fun c => (bareRequest Params.vectors c).cmd) = [0x05, 0x06, 0x07] := by decide

/-- Clause 2 with more elements than fit, and with none moved (`k = 0`) on a full buffer. -/
theorem witness_EnqnEffect :
    State.reset.regs.cfg = false ∧
    (∀ hd ∈ [15, 16], (wide hd 0 []).regs.Inv ∧ (wide hd 0 []).regs.cfg = true ∧ (wide hd 0 []).backing = .backed ∧
      (wide hd 0 []).stale = false ∧
      ([[1], [2]] : List Elem).length = (2 : BitVec 32).toNat ∧
      ∀ e ∈ ([[1], [2]] : List Elem), e.length = (wide hd 0 []).regs.esize.toNat) := by decide

theorem witness_DeqnEffect :
    State.reset.regs.cfg = false ∧
    (∀ hd ∈ [7, 8], (wide hd 7 []).regs.Inv ∧ (wide hd 7 []).regs.cfg = true ∧ (wide hd 7 []).backing = .backed ∧
      (wide hd 7 []).stale = false) := by decide

theorem witness_EnqnIsRepeatedEnq :
    (wide 15 0 []).Usable ∧ dataShaped (wide 15 0 []).regs.esize.toNat 2 [[1], [2]] = true := by decide

theorem witness_DeqnIsRepeatedDeq : (wide 8 7 []).Usable := by decide

theorem witness_UnconfiguredCommandsFail :
    State.reset.regs.cfg = false ∧ ∀ c ∈ [(0x00 : BitVec 8), 0x02, 0xFF], c ≠ 0x01 := by decide

/-- One state for each way the premise is met. -/
theorem witness_FailureCauses :
    ((decode (⟨0x02, 0, 0, 0, [[7]]⟩ : Request Params.vectors)).shaped (wide 16 0 []).regs.esize.toNat = true ∧
      (wide 16 0 []).backing ≠ .released ∧ (wide 16 0 []).stale = false) ∧
    (stored State.reset .released true).regs.cfg = false ∧ (⟨0x01, 0, 1, 16, []⟩ : Request Params.vectors).cmd = 0x01 := by decide

theorem witness_EveryCommandCompletes :
    (wide 15 0 []).regs.Inv ∧ (wide 15 0 []).backing = .backed ∧ (wide 15 0 []).stale = false ∧
    (∀ i ∈ [Instr.init 0 0 0, .enq [[1]], .deq, .peek 9, .isempty, .isfull, .occ, .enqn 1 [[1]], .deqn 9, .reserved 0],
      i.shaped (wide 15 0 []).regs.esize.toNat = true) ∧
    State.reset.regs.Inv ∧ State.reset.backing = .backed ∧ State.reset.stale = false ∧ State.reset.regs.cfg = false := by decide

theorem witness_CountingLaw :
    (short 0xFF 0xF1 []).regs.Inv ∧ (∀ i ∈ [Instr.enq [[1]], .enqn 3 [[2], [3], [4]], .deqn 20], i.isInit = false) ∧
    ∃ t, runCommands [.enq [[1]], .enqn 3 [[2], [3], [4]], .deqn 20] (short 0xFF 0xF1 []) = .next t :=
  ⟨by decide, by decide, next_of_isNext (by decide)⟩

theorem witness_BufferRefinesFifoQueue :
    (wide 15 0 []).Usable ∧ ∀ i ∈ [Instr.enq [[1]], .deq, .peek 14, .isempty, .isfull, .occ, .enqn 2 [[1], [2]], .deqn 9,
      .reserved 0], i.isInit = false ∧ i.shaped (wide 15 0 []).regs.esize.toNat = true := by decide

theorem witness_RunKeepsFifoOrder :
    (wide 15 0 []).Usable ∧ ∀ i ∈ [Instr.enq [[1]], .peek 3, .deqn 3, .occ, .enqn 2 [[1], [2]], .reserved 0, .deq],
      i.isInit = false ∧ i.shaped (wide 15 0 []).regs.esize.toNat = true := by decide

end Sys2Proof.Tests
end

section
/-! PROOFS. Reset and the status outputs (10_state.md R36, R42): what each output says of the registers, what the reset values
make of them, and the two statements about them. -/

namespace Sys2Proof.Machine

variable {p : Params}

/-! ### The status outputs as functions of the registers (10_state.md R36) -/

theorem Regs.value_cfg_eq_one_iff (r : Regs p) : r.value .cfg = 1 ↔ r.cfg = true := by
  rw [Regs.value, Bool.toNat_eq_one]

theorem Regs.value_cfg_eq_zero_iff (r : Regs p) : r.value .cfg = 0 ↔ r.cfg = false := by
  rw [Regs.value, Bool.toNat_eq_zero]

theorem Regs.empty_iff_sub_eq_zero (r : Regs p) : r.empty = true ↔ r.head - r.tail = 0 := by
  rw [Regs.empty, decide_eq_true_iff, Regs.occ]

theorem State.cfgO_iff (s : State) : s.cfgO = true ↔ s.regs.cfg = true := Iff.rfl

theorem State.emptyO_iff (s : State) : s.emptyO = true ↔ s.regs.cfg = true ∧ s.regs.head - s.regs.tail = 0 := by
  rw [State.emptyO, Bool.and_eq_true, Regs.empty_iff_sub_eq_zero]

theorem State.fullO_iff (s : State) : s.fullO = true ↔ s.regs.cfg = true ∧ s.regs.head - s.regs.tail = s.regs.cap := by
  rw [State.fullO, Bool.and_eq_true, Regs.full_iff_sub_eq_cap]

/-- CFG gates all three outputs (10_state.md R36). -/
theorem State.outputs_eq_false_of_unconfigured {s : State} (hc : s.regs.cfg = false) :
    s.cfgO = false ∧ s.emptyO = false ∧ s.fullO = false := by
  simp only [State.cfgO, State.emptyO, State.fullO, hc, Bool.false_and, and_self]

/-! ### Reset (10_state.md R42, 70_reset_and_hazards.md R170) -/

@[simp] theorem Regs.reset_cfg (p : Params) : (Regs.reset p).cfg = false := rfl

@[simp] theorem Regs.reset_value (p : Params) (r : RegId) : (Regs.reset p).value r = 0 := by
  cases r <;> rfl

theorem State.outputs_eq_false_of_regs_eq_reset {s : State} (hr : s.regs = Regs.reset s.params) :
    s.cfgO = false ∧ s.emptyO = false ∧ s.fullO = false :=
  State.outputs_eq_false_of_unconfigured (by rw [hr, Regs.reset_cfg])

theorem State.driveReset_true (s : State) : s.driveReset true = s.assertReset := rfl

theorem State.driveReset_false_of_rst {s : State} (h : s.rst = true) : s.driveReset false = s.releaseReset := by
  rw [State.driveReset, if_neg Bool.false_ne_true, if_pos h]

/-- A whole reset, asserted and then deasserted, ends as the deassertion leaves it. -/
theorem State.driveReset_true_false (s : State) : (s.driveReset true).driveReset false = s.releaseReset := by
  rw [State.driveReset_true, State.driveReset_false_of_rst s.assertReset_rst]

end Sys2Proof.Machine

open Sys2Proof.Machine

/-- Settles O17: each output is CFG with its predicate, and the predicates compare `HEAD -w TAIL` with 0 and with CAP. -/
theorem statusOutputsFollowTheRegisters : Obligations.StatusOutputsFollowTheRegisters := by
  intro s
  simp only [Regs.value_cfg_eq_one_iff, Regs.value_cfg_eq_zero_iff]
  exact ⟨s.cfgO_iff, s.emptyO_iff, s.fullO_iff, fun hc => (State.outputs_eq_false_of_unconfigured hc).2⟩

/-- Settles O9: power-on and a whole reset both leave the reset registers, every value of which is 0 and which hold all three
outputs at 0, and neither level of `rst` touches storage. -/
theorem resetValues : Obligations.ResetValues := by
  refine ⟨fun p => ?_, fun s => ?_⟩
  · have hval : ∀ r, (State.resetAt p).regs.value r = 0 := Regs.reset_value p
    exact ⟨hval _, hval _, hval _, hval _, hval _, hval _, State.outputs_eq_false_of_regs_eq_reset rfl⟩
  · rw [State.driveReset_true_false, State.driveReset_true]
    obtain ⟨hcfg, hempty, hfull⟩ := State.outputs_eq_false_of_regs_eq_reset s.releaseReset_regs
    exact ⟨Regs.reset_value s.params, hcfg, hempty, hfull, s.assertReset_mem, s.releaseReset_mem⟩
end

section
/-! PROOFS. The decoder (30_encoding.md sections 2 and 3): which command bytes select which row, what each row decodes to, and
the statements about the opcode map, the ignored operands and the reserved encodings. -/

namespace Sys2Proof

variable {p : Params}

/-! ### The two fields of the command byte (30_encoding.md R72) -/

theorem cmdOp_toNat (c : BitVec 8) : (cmdOp c).toNat = c.toNat % 16 := by
  rw [cmdOp, BitVec.extractLsb'_toNat, Nat.shiftRight_zero]

theorem cmdRsv_toNat (c : BitVec 8) : (cmdRsv c).toNat = c.toNat / 16 := by
  have := c.isLt
  rw [cmdRsv, BitVec.extractLsb'_toNat, Nat.shiftRight_eq_div_pow]
  omega

theorem cmdRsv_ne_zero_iff (c : BitVec 8) : cmdRsv c ≠ 0 ↔ 16 ≤ c.toNat := by
  have hzero : cmdRsv c = 0 ↔ (cmdRsv c).toNat = 0 := BitVec.toNat_inj.symm
  rw [ne_eq, hzero, cmdRsv_toNat]
  omega

theorem cmdOp_eq_zero_iff (c : BitVec 8) : cmdOp c = 0 ↔ c.toNat % 16 = 0 := by
  rw [← cmdOp_toNat]
  exact BitVec.toNat_inj.symm

/-- The two fields make up the whole byte. -/
theorem eq_of_cmdRsv_eq_of_cmdOp_eq {c c' : BitVec 8} (hr : cmdRsv c = cmdRsv c') (ho : cmdOp c = cmdOp c') : c = c' := by
  have hr := congrArg BitVec.toNat hr
  have ho := congrArg BitVec.toNat ho
  rw [cmdRsv_toNat, cmdRsv_toNat] at hr
  rw [cmdOp_toNat, cmdOp_toNat] at ho
  exact BitVec.eq_of_toNat_eq (by omega)

/-! ### The row a command byte selects (30_encoding.md R75, R78, R80) -/

@[simp] theorem Opcode.cmdRsv_cmd (o : Opcode) : cmdRsv o.cmd = 0 := by cases o <;> decide

theorem opcodeOf_eq_some_iff (op : BitVec 4) (o : Opcode) : opcodeOf op = some o ↔ op = cmdOp o.cmd := by
  cases o <;> revert op <;> decide

theorem opcodeOf_eq_none_iff (op : BitVec 4) : opcodeOf op = none ↔ op = 0 ∨ 0xA ≤ op.toNat := by
  revert op
  decide

theorem decodeCmd_eq_some_iff (c : BitVec 8) (o : Opcode) : decodeCmd c = some o ↔ c = o.cmd := by
  constructor
  · intro h
    rw [decodeCmd] at h
    split at h
    case isTrue hr => exact eq_of_cmdRsv_eq_of_cmdOp_eq (hr.trans o.cmdRsv_cmd.symm) ((opcodeOf_eq_some_iff _ o).1 h)
    case isFalse => cases h
  · rintro rfl
    exact Laws.CommandByte.decodeCmd_cmd o

/-- The reserved bytes as R78 lists them. -/
theorem decodeCmd_eq_none_iff (c : BitVec 8) :
    decodeCmd c = none ↔ cmdRsv c ≠ 0 ∨ cmdOp c = 0 ∨ 0xA ≤ (cmdOp c).toNat := by
  by_cases hr : cmdRsv c = 0
  · rw [decodeCmd, if_pos hr, opcodeOf_eq_none_iff, or_iff_right (not_not.2 hr)]
  · rw [decodeCmd, if_neg hr]
    exact iff_of_true rfl (.inl hr)

/-- The reserved bytes as a range: all but 0x01 to 0x09. -/
theorem decodeCmd_eq_none_iff_toNat (c : BitVec 8) : decodeCmd c = none ↔ c.toNat = 0 ∨ 0xA ≤ c.toNat := by
  rw [decodeCmd_eq_none_iff, cmdRsv_ne_zero_iff, cmdOp_eq_zero_iff, cmdOp_toNat]
  omega

/-! ### The command of each row (30_encoding.md R73) -/

/-- The command a request carries when its byte selects the opcode: the operands that the operand table gives the opcode. -/
def Opcode.commandOf (q : Request p) : Opcode → Instr
  | .init => .init q.a.toNat q.b.toNat q.c.toNat
  | .enq => .enq q.d
  | .deq => .deq
  | .peek => .peek q.b.toNat
  | .isempty => .isempty
  | .isfull => .isfull
  | .occ => .occ
  | .enqn => .enqn q.b.toNat q.d
  | .deqn => .deqn q.b.toNat

theorem decode_of_cmd_eq {q : Request p} (o : Opcode) (h : q.cmd = o.cmd) : decode q = o.commandOf q := by
  rw [decode, (decodeCmd_eq_some_iff q.cmd o).2 h]
  cases o <;> rfl

theorem decode_of_decodeCmd_eq_none {q : Request p} (h : decodeCmd q.cmd = none) : decode q = .reserved q.cmd := by
  rw [decode, h]

/-- The decoder reads the operands of the operand table and no others. -/
theorem decode_congr {q q' : Request p} (hcmd : q.cmd = q'.cmd)
    (hinit : q.cmd = 0x01 → q.a = q'.a ∧ q.b = q'.b ∧ q.c = q'.c) (henq : q.cmd = 0x02 → q.d = q'.d)
    (hpeek : q.cmd = 0x04 → q.b = q'.b) (henqn : q.cmd = 0x08 → q.b = q'.b ∧ q.d = q'.d)
    (hdeqn : q.cmd = 0x09 → q.b = q'.b) : decode q = decode q' := by
  cases hrow : decodeCmd q.cmd with
  | none => rw [decode_of_decodeCmd_eq_none hrow, decode_of_decodeCmd_eq_none (hcmd ▸ hrow), hcmd]
  | some o =>
    have hc : q.cmd = o.cmd := (decodeCmd_eq_some_iff q.cmd o).1 hrow
    rw [decode_of_cmd_eq o hc, decode_of_cmd_eq o (hcmd.symm.trans hc)]
    cases o with
    | init =>
      obtain ⟨ha, hb, hc⟩ := hinit hc
      simp only [Opcode.commandOf, ha, hb, hc]
    | enq => simp only [Opcode.commandOf, henq hc]
    | peek => simp only [Opcode.commandOf, hpeek hc]
    | enqn =>
      obtain ⟨hb, hd⟩ := henqn hc
      simp only [Opcode.commandOf, hb, hd]
    | deqn => simp only [Opcode.commandOf, hdeqn hc]
    | deq | isempty | isfull | occ => rfl

/-! ### The reserved encodings (30_encoding.md R78) -/

namespace Machine

theorem exec_reserved (cmd : BitVec 8) (s : State) : exec (.reserved cmd) s = .next s.fail := rfl

end Machine

/-- A count over a range of which all from `m` upward count. -/
theorem length_filter_range_add {m k : Nat} {q : Nat → Bool} (h : ∀ n, m ≤ n → n < m + k → q n = true) :
    ((List.range (m + k)).filter q).length = ((List.range m).filter q).length + k := by
  have hrest : ∀ n ∈ (List.range k).map (m + ·), q n = true := by
    intro n hn
    obtain ⟨j, hj, rfl⟩ := List.mem_map.1 hn
    have := List.mem_range.1 hj
    exact h _ (by omega) (by omega)
  rw [List.range_add, List.filter_append, List.length_append, List.filter_eq_self.2 hrest, List.length_map,
    List.length_range]

/-- From 0x0A upward every byte is reserved. -/
theorem decodeCmd_ofNat_isNone {n : Nat} (hge : 0xA ≤ n) (hlt : n < 256) :
    (decodeCmd (BitVec.ofNat 8 n)).isNone = true := by
  rw [Option.isNone_iff_eq_none, decodeCmd_eq_none_iff_toNat, BitVec.toNat_ofNat, Nat.mod_eq_of_lt hlt]
  exact .inr hge

/-- Only 0x00 is reserved below 0x0A. -/
theorem count_reserved :
    ((List.range 256).filter fun n => (decodeCmd (BitVec.ofNat 8 n)).isNone).length = 247 :=
  (length_filter_range_add (m := 10) (k := 246) fun _ => decodeCmd_ofNat_isNone).trans (by decide)

/-- No byte below 0x10 has RSV nonzero, and every other byte is reserved with RSV nonzero. -/
theorem count_reserved_with_rsv :
    ((List.range 256).filter fun n =>
      (decodeCmd (BitVec.ofNat 8 n)).isNone && decide ((BitVec.ofNat 8 n).extractLsb' 4 4 ≠ 0)).length = 240 := by
  refine (length_filter_range_add (m := 16) (k := 240) fun n hge hlt => ?_).trans (by decide)
  have hrsv : cmdRsv (BitVec.ofNat 8 n) ≠ 0 := by
    rw [cmdRsv_ne_zero_iff, BitVec.toNat_ofNat, Nat.mod_eq_of_lt hlt]
    exact hge
  exact Bool.and_eq_true_iff.2 ⟨decodeCmd_ofNat_isNone (by omega) hlt, decide_eq_true hrsv⟩

end Sys2Proof

open Sys2Proof Sys2Proof.Machine

/-- Settles O4: the two requests decode to the same command. -/
theorem ignoredOperandsHaveNoEffect : Obligations.IgnoredOperandsHaveNoEffect :=
  fun s _ _ hcmd hinit henq hpeek henqn hdeqn =>
    congrArg (exec · s) (decode_congr hcmd hinit henq hpeek henqn hdeqn)

/-- Settles O6: a byte of R78's list decodes to the reserved row, whose meaning is FAIL. -/
theorem reservedEncodingFails : Obligations.ReservedEncodingFails := by
  refine ⟨fun s q h => ?_, count_reserved, count_reserved_with_rsv⟩
  rw [decode_of_decodeCmd_eq_none ((decodeCmd_eq_none_iff q.cmd).2 h), exec_reserved]

/-- Settles O1: 0x01 to 0x09 are the bytes of the nine opcodes, and the other bytes of its list are reserved. -/
theorem opcodeMapDecodes : Obligations.OpcodeMapDecodes := fun _ q =>
  ⟨decode_of_cmd_eq .init, decode_of_cmd_eq .enq, decode_of_cmd_eq .deq, decode_of_cmd_eq .peek, decode_of_cmd_eq .isempty,
    decode_of_cmd_eq .isfull, decode_of_cmd_eq .occ, decode_of_cmd_eq .enqn, decode_of_cmd_eq .deqn, fun h =>
    decode_of_decodeCmd_eq_none ((decodeCmd_eq_none_iff_toNat q.cmd).2 (h.imp (congrArg BitVec.toNat) And.left))⟩
end

section
/-! PROOFS. INIT (40_configuration.md R90 to R92): its test as the five conditions, its meaning on each side of the test, the
status outputs of an empty buffer, and the statement about its effect. -/

namespace Sys2Proof.Machine

variable {p : Params}

/-! ### The test of INIT (40_configuration.md R90) -/

theorem powerOfTwo_iff {w : Nat} (c : BitVec w) : powerOfTwo c = true ↔ c ≠ 0 ∧ (c - 1) &&& c = 0 := by
  rw [powerOfTwo, Bool.and_eq_true, decide_eq_true_iff, decide_eq_true_iff]

theorem initValid_iff (a : BitVec p.addrW) (b c : BitVec p.ctrW) :
    initValid a b c = true ↔
      a ≠ 0 ∧ 1 ≤ b.toNat ∧ c ≠ 0 ∧ (c - 1) &&& c = 0 ∧ a.toNat + c.toNat * b.toNat ≤ 2 ^ p.addrW := by
  simp only [initValid, Bool.and_eq_true, decide_eq_true_iff, powerOfTwo_iff, and_assoc]

/-! ### The meaning of INIT (40_configuration.md R91, R92) -/

/-- An operand taken from an address-wide field is that field (30_encoding.md R74). -/
@[simp] theorem State.addrOperand_toNat (s : State) (a : BitVec s.params.addrW) : s.addrOperand a.toNat = a := by
  rw [State.addrOperand, BitVec.ofNat_toNat, BitVec.setWidth_eq]

/-- An operand taken from a counter-wide field is that field (30_encoding.md R74). -/
@[simp] theorem State.countOperand_toNat (s : State) (b : BitVec s.params.ctrW) : s.countOperand b.toNat = b := by
  rw [State.countOperand, BitVec.ofNat_toNat, BitVec.setWidth_eq]

theorem exec_init_of_valid {s : State} {a : BitVec s.params.addrW} {b c : BitVec s.params.ctrW}
    (h : initValid a b c = true) :
    exec (.init a.toNat b.toNat c.toNat) s = .next { s with
      regs := { base := a, esize := b, cap := c, head := 0, tail := 0, cfg := true }
      rsp := some { ok := true, val := 0, r := [] }
      stale := false } := by
  simp only [exec, execInit, State.addrOperand_toNat, State.countOperand_toNat, if_pos h]

theorem exec_init_of_not_valid {s : State} {a : BitVec s.params.addrW} {b c : BitVec s.params.ctrW}
    (h : ¬ initValid a b c = true) : exec (.init a.toNat b.toNat c.toNat) s = .next s.fail := by
  simp only [exec, execInit, State.addrOperand_toNat, State.countOperand_toNat, if_neg h]

/-- A configured buffer with equal counters is empty, and it is not full, because its capacity is not 0 (10_state.md R36,
R38). -/
theorem State.outputs_of_head_eq_tail {s : State} (hc : s.regs.cfg = true) (hcap : s.regs.cap ≠ 0)
    (heq : s.regs.head = s.regs.tail) : s.cfgO = true ∧ s.emptyO = true ∧ s.fullO = false := by
  have hsub : s.regs.head - s.regs.tail = 0 := by rw [heq, BitVec.sub_self]; rfl
  refine ⟨s.cfgO_iff.2 hc, s.emptyO_iff.2 ⟨hc, hsub⟩, Bool.eq_false_iff.2 fun hfull => ?_⟩
  obtain ⟨-, hocc⟩ := s.fullO_iff.1 hfull
  exact hcap (hocc.symm.trans hsub)

end Sys2Proof.Machine

open Sys2Proof Sys2Proof.Machine

/-- Settles O25: byte 0x01 decodes to INIT with the request's own fields, and INIT's test is the five conditions. Where they hold
the new buffer has equal counters and a nonzero capacity, which gives the outputs; where they do not it is FAIL. -/
theorem initEffect : Obligations.InitEffect := by
  intro s q hcmd
  have hdec : decode q = .init q.a.toNat q.b.toNat q.c.toNat := decode_of_cmd_eq .init hcmd
  rw [hdec, ← initValid_iff]
  refine ⟨fun hvalid => ⟨false, _, rfl, exec_init_of_valid hvalid, ?_⟩, exec_init_of_not_valid⟩
  obtain ⟨-, -, hcap, -⟩ := (initValid_iff q.a q.b q.c).1 hvalid
  exact State.outputs_of_head_eq_tail rfl hcap rfl
end

section
/-! PROOFS. The single-element commands (41_single_element.md R100 to R109): the slots they use, their meaning on each side of
their tests, the storage and the outputs they leave, and the statements about ENQ, DEQ and PEEK. -/

namespace Sys2Proof.Machine

variable {p : Params}

/-! ### The slots of one element (41_single_element.md R100, R104, R108) -/

theorem Regs.enqAddr_zero (r : Regs p) : r.enqAddr 0 = r.addrOf r.head := by
  rw [Regs.enqAddr, BitVec.add_zero]

theorem Regs.deqAddr_zero (r : Regs p) : r.deqAddr 0 = r.addrOf r.tail := by
  rw [Regs.deqAddr, BitVec.add_zero]

/-- The index of PEEK is added to TAIL modulo `2^W` (41_single_element.md R108). -/
theorem Regs.deqAddr_toNat (r : Regs p) (b : BitVec p.ctrW) : r.deqAddr b.toNat = r.addrOf (r.tail + b) := by
  rw [Regs.deqAddr, BitVec.ofNat_toNat, BitVec.setWidth_eq]

theorem Regs.enqCells_singleton (r : Regs p) (e : Elem) : r.enqCells 0 [e] = cellsAt (r.addrOf r.head) e := by
  simp only [Regs.enqCells, Regs.enqAddr_zero, List.append_nil]

/-- Byte `j` of a stored element (20_memory.md R54). -/
theorem Regs.getElem?_elemAt (r : Regs p) (m : Memory) (i : Nat) {j : Nat} (hj : j < r.esize.toNat) :
    (r.elemAt m i)[j]? = some (m.read (r.deqAddr i + j)) := by
  rw [Regs.elemAt, Memory.getElem?_readBytes, if_pos hj]

/-! ### What a `MemWrite` of one element leaves in storage (00_scope.md R13) -/

theorem Memory.read_writeCells_cellsAt_add (m : Memory) (a : Nat) (e : List Byte) {j : Nat} (hj : j < e.length) :
    some ((m.writeCells (cellsAt a e)).read (a + j)) = e[j]? := by
  simpa only [Memory.getElem?_readBytes, if_pos hj] using
    congrArg (·[j]?) (Memory.readBytes_writeCells_cellsAt m a e)

theorem Memory.read_writeCells_cellsAt_outside (m : Memory) {a x : Nat} {e : List Byte} (hx : x < a ∨ a + e.length ≤ x) :
    (m.writeCells (cellsAt a e)).read x = m.read x := by
  refine Memory.read_writeCells_of_not_touched m fun c hcell heq => ?_
  have := mem_cellsAt hcell
  omega

/-! ### The status outputs of a configured buffer as numbers (10_state.md R33, R34, R36) -/

theorem State.emptyO_iff_of_occ {s : State} {n : Nat} (ho : s.regs.occ.toNat = n) (hc : s.regs.cfg = true) :
    s.emptyO = true ↔ n = 0 := by
  rw [State.emptyO, hc, Bool.true_and, Regs.empty_iff, ho]

theorem State.fullO_iff_of_occ {s : State} {n : Nat} (ho : s.regs.occ.toNat = n) (hc : s.regs.cfg = true) :
    s.fullO = true ↔ n = s.regs.cap.toNat := by
  rw [State.fullO, hc, Bool.true_and, Regs.full_iff, ho]

/-- The outputs once HEAD has advanced by 1 on a buffer with room. -/
theorem State.outputs_head_succ {s t : State} (hc : s.regs.cfg = true)
    (hroom : s.regs.occ.toNat < s.regs.cap.toNat) {m : Memory} {x : Option (Response s.params)}
    (ht : t = { s with regs := { s.regs with head := s.regs.head + 1 }, mem := m, rsp := x }) :
    t.emptyO = false ∧ (t.fullO = true ↔ s.regs.occ.toNat = s.regs.cap.toNat - 1) := by
  have hcap : s.regs.cap.toNat < 2 ^ s.params.ctrW := s.regs.cap.isLt
  have hocc : t.regs.occ.toNat = s.regs.occ.toNat + 1 := by
    subst ht; exact s.regs.occ_add_head (k := 1) (by omega)
  have hcfg : t.regs.cfg = true := by rw [ht]; exact hc
  have hsame : t.regs.cap.toNat = s.regs.cap.toNat := by rw [ht]
  rw [Bool.eq_false_iff, ne_eq, State.emptyO_iff_of_occ hocc hcfg, State.fullO_iff_of_occ hocc hcfg, hsame]
  omega

/-- The outputs once TAIL has advanced by 1 on a buffer that is not empty. -/
theorem State.outputs_tail_succ {s t : State} (hI : s.regs.Inv) (hc : s.regs.cfg = true)
    (hpos : 1 ≤ s.regs.occ.toNat) {x : Option (Response s.params)}
    (ht : t = { s with regs := { s.regs with tail := s.regs.tail + 1 }, rsp := x }) :
    t.fullO = false ∧ (t.emptyO = true ↔ s.regs.occ.toNat = 1) := by
  have hle : s.regs.occ.toNat ≤ s.regs.cap.toNat := hI.occ_le hc
  have hocc : t.regs.occ.toNat = s.regs.occ.toNat - 1 := by
    subst ht; exact s.regs.occ_add_tail hpos
  have hcfg : t.regs.cfg = true := by rw [ht]; exact hc
  have hsame : t.regs.cap.toNat = s.regs.cap.toNat := by rw [ht]
  rw [Bool.eq_false_iff, ne_eq, State.emptyO_iff_of_occ hocc hcfg, State.fullO_iff_of_occ hocc hcfg, hsame]
  omega

/-! ### Failing and completing -/

/-- A command whose own check fails is FAIL whatever CFG is (60_exceptions.md R150, R152). -/
theorem State.useBuffer_fail {s : State} (hg : s.storageGone = false) : s.useBuffer (.next s.fail) = .next s.fail := by
  cases hc : s.regs.cfg with
  | false => exact State.useBuffer_unconfigured hc _
  | true => exact State.useBuffer_ready hc hg _

/-- Backed storage neither errs nor is gone, when it was not released since INIT (20_memory.md R69). -/
theorem State.storage_answers {s : State} (hb : s.backing = .backed) (hs : s.stale = false) :
    s.storageGone = false ∧ s.backing ≠ .erring :=
  ⟨State.storageGone_eq_false (by simp [hb]) hs, by simp [hb]⟩

/-! ### ENQ (41_single_element.md R100, R101) -/

theorem State.dataOk_singleton {s : State} {e : Elem} : s.dataOk 1 [e] = true ↔ e.length = s.regs.esize.toNat := by
  rw [State.dataOk, dataShaped_iff]
  simp

theorem exec_enq_of_unconfigured {s : State} (hc : s.regs.cfg = false) (data : List Elem) :
    exec (.enq data) s = .next s.fail := State.useBuffer_unconfigured hc _

theorem exec_enq_of_full {s : State} (hg : s.storageGone = false) {data : List Elem} (hd : s.dataOk 1 data = true)
    (hf : s.regs.full = true) : exec (.enq data) s = .next s.fail := by
  simp only [exec, execEnq, hd, Bool.true_eq_false, if_false, if_pos hf, State.useBuffer_fail hg]

theorem exec_enq_of_not_full {s : State} (hc : s.regs.cfg = true) (hg : s.storageGone = false) {data : List Elem}
    (hd : s.dataOk 1 data = true) (hf : ¬ s.regs.full = true) : exec (.enq data) s = s.enqueue data 0 := by
  simp only [exec, execEnq, State.useBuffer_ready hc hg, hd, Bool.true_eq_false, if_false, if_neg hf]

/-! ### DEQ (41_single_element.md R104, R105) -/

theorem exec_deq_of_unconfigured {s : State} (hc : s.regs.cfg = false) : exec .deq s = .next s.fail :=
  State.useBuffer_unconfigured hc _

theorem exec_deq_of_empty {s : State} (hg : s.storageGone = false) (he : s.regs.empty = true) :
    exec .deq s = .next s.fail := by
  simp only [exec, execDeq, if_pos he, State.useBuffer_fail hg]

theorem exec_deq_of_not_empty {s : State} (hc : s.regs.cfg = true) (hg : s.storageGone = false)
    (he : ¬ s.regs.empty = true) : exec .deq s = s.dequeue 1 0 := by
  simp only [exec, execDeq, State.useBuffer_ready hc hg, if_neg he]

/-! ### PEEK (41_single_element.md R108, R109) -/

theorem exec_peek_of_unconfigured {s : State} (hc : s.regs.cfg = false) (idx : Nat) :
    exec (.peek idx) s = .next s.fail := State.useBuffer_unconfigured hc _

/-- PEEK's own test is the index alone: every index is out of range on an empty buffer. -/
theorem exec_peek_of_occ_le {s : State} (hg : s.storageGone = false) {idx : Nat} (hi : s.regs.occ.toNat ≤ idx) :
    exec (.peek idx) s = .next s.fail := by
  simp only [exec, execPeek, decide_eq_true hi, Bool.or_true, if_true, State.useBuffer_fail hg]

theorem exec_peek_of_lt_occ {s : State} (hI : s.regs.Inv) (hc : s.regs.cfg = true) (hg : s.storageGone = false)
    (hb : s.backing ≠ .erring) {idx : Nat} (hi : idx < s.regs.occ.toNat) :
    exec (.peek idx) s = .next (s.respond true 0 [s.regs.elemAt s.mem idx]) := by
  have he : s.regs.empty = false := Bool.eq_false_iff.2 fun h => by have := s.regs.empty_iff.1 h; omega
  have haccess : ∀ x ∈ [(s.regs.deqAddr idx, s.regs.esize.toNat)], x.1 + x.2 ≤ 2 ^ s.params.addrW :=
    List.forall_mem_singleton.2 (hI.addrOf_fits hc _)
  simp only [exec, execPeek, State.useBuffer_ready hc hg, he, decide_eq_false (Nat.not_le.2 hi), Bool.or_self,
    Bool.false_eq_true, if_false, State.access_next hb haccess]

end Sys2Proof.Machine

open Sys2Proof Sys2Proof.Machine

/-- Settles O28: byte 0x02 decodes to ENQ of the write data. Where the buffer has room it is an enqueue of one element, whose
stores are one `MemWrite` at the slot of HEAD and which raises the occupancy by 1. -/
theorem enqEffect : Obligations.EnqEffect := by
  intro s q e hcmd hdata
  have hdec : decode q = .enq [e] := hdata ▸ decode_of_cmd_eq .enq hcmd
  rw [hdec]
  refine ⟨fun hc => exec_enq_of_unconfigured hc _, fun _ hb hs hlen hocc => ?_, fun hI hc hb hs hlen hocc => ?_⟩
  · exact exec_enq_of_full (State.storageGone_eq_false hb hs) (State.dataOk_singleton.2 hlen)
      (s.regs.full_iff_sub_eq_cap.2 hocc)
  · obtain ⟨hgone, herr⟩ := State.storage_answers hb hs
    have hfull : ¬ s.regs.full = true := mt s.regs.full_iff_sub_eq_cap.1 hocc
    have hroom : s.regs.occ.toNat < s.regs.cap.toNat := hI.occ_lt_of_not_full hc hfull
    refine ⟨s.regs.addrOf s.regs.head, s.mem.writeCells (cellsAt (s.regs.addrOf s.regs.head) e), _, rfl, rfl, ?_,
      fun j hj => Memory.read_writeCells_cellsAt_add s.mem _ e (hlen ▸ hj),
      fun a ha => Memory.read_writeCells_cellsAt_outside s.mem (hlen ▸ ha),
      State.outputs_head_succ hc hroom rfl⟩
    rw [exec_enq_of_not_full hc hgone (State.dataOk_singleton.2 hlen) hfull, State.enqueue_next hI hc herr,
      Regs.enqCells_singleton]
    rfl

/-- Settles O29: byte 0x03 decodes to DEQ. Where the buffer is not empty it is a dequeue of one element, read at the slot of
TAIL, and it lowers the occupancy by 1. -/
theorem deqEffect : Obligations.DeqEffect := by
  intro s q hcmd
  have hdec : decode q = .deq := decode_of_cmd_eq .deq hcmd
  rw [hdec]
  refine ⟨?_, fun hI hc hb hs hocc => ?_⟩
  · rintro (hc | ⟨hb, hs, hocc⟩)
    · exact exec_deq_of_unconfigured hc
    · exact exec_deq_of_empty (State.storageGone_eq_false hb hs) (s.regs.empty_iff_sub_eq_zero.2 hocc)
  · obtain ⟨hgone, herr⟩ := State.storage_answers hb hs
    have hempty : ¬ s.regs.empty = true := mt s.regs.empty_iff_sub_eq_zero.1 hocc
    have hpos : 1 ≤ s.regs.occ.toNat := Nat.one_le_iff_ne_zero.2 (mt s.regs.empty_iff.2 hempty)
    refine ⟨s.regs.elemAt s.mem 0, _, rfl, ?_, Regs.elemAt_length .., fun j hj => ?_,
      State.outputs_tail_succ hI hc hpos rfl⟩
    · rw [exec_deq_of_not_empty hc hgone hempty, State.dequeue_next hI hc herr]
      rfl
    · rw [Regs.getElem?_elemAt _ _ _ hj, Regs.deqAddr_zero]
      rfl

/-- Settles O30: byte 0x04 decodes to PEEK of operand B, and an empty buffer is the case OCC = 0 of an index out of range. -/
theorem peekEffect : Obligations.PeekEffect := by
  intro s q hcmd
  have hdec : decode q = .peek q.b.toNat := decode_of_cmd_eq .peek hcmd
  rw [hdec]
  refine ⟨?_, fun hI hc hb hs hidx => ?_⟩
  · rintro (hc | ⟨hb, hs, hempty | hidx⟩)
    · exact exec_peek_of_unconfigured hc _
    · have hocc : s.regs.occ.toNat = 0 := s.regs.empty_iff.1 (s.regs.empty_iff_sub_eq_zero.2 hempty)
      exact exec_peek_of_occ_le (State.storageGone_eq_false hb hs) (hocc.trans_le (Nat.zero_le _))
    · exact exec_peek_of_occ_le (State.storageGone_eq_false hb hs) hidx
  · obtain ⟨hgone, herr⟩ := State.storage_answers hb hs
    refine ⟨s.regs.elemAt s.mem q.b.toNat, ?_, Regs.elemAt_length .., fun j hj => ?_⟩
    · exact exec_peek_of_lt_occ hI hc hgone herr hidx
    · rw [Regs.getElem?_elemAt _ _ _ hj, Regs.deqAddr_toNat]
      rfl
end

section
/-! PROOFS. The query commands (42_queries.md R120 to R124): the boolean result as a condition on the registers, the status
outputs of a configured buffer, the meaning of each query on both sides of CFG, and the statements about ISEMPTY, ISFULL and
OCC. -/

namespace Sys2Proof.Machine

variable {p : Params}

/-! ### The results as functions of the registers (42_queries.md) -/

/-- A boolean result is 1 exactly where the condition that its predicate decides holds. -/
theorem boolVal_eq_ite {w : Nat} {b : Bool} {P : Prop} [Decidable P] (h : b = true ↔ P) :
    boolVal w b = if P then 1 else 0 := if_congr h rfl rfl

/-- On a configured buffer EMPTY_O is EMPTY (10_state.md R33, R36). -/
theorem State.emptyO_iff_head_eq_tail {s : State} (hc : s.regs.cfg = true) :
    s.emptyO = true ↔ s.regs.head = s.regs.tail := by
  rw [State.emptyO, hc, Bool.true_and, Regs.empty_iff_head_eq_tail]

/-- On a configured buffer FULL_O is FULL (10_state.md R34, R36). -/
theorem State.fullO_iff_sub_eq_cap {s : State} (hc : s.regs.cfg = true) :
    s.fullO = true ↔ s.regs.head - s.regs.tail = s.regs.cap := by
  rw [State.fullO_iff, and_iff_right hc]

/-- A full buffer is not empty, because its capacity is not 0 (10_state.md R38). -/
theorem Regs.Inv.head_ne_tail_of_sub_eq_cap {r : Regs p} (h : r.Inv) (hc : r.cfg = true) (hfull : r.head - r.tail = r.cap) :
    r.head ≠ r.tail := by
  intro heq
  have hpos : 1 ≤ r.cap.toNat := h.cap_pos hc
  have hzero : r.occ.toNat = 0 := r.empty_iff.1 (r.empty_iff_head_eq_tail.2 heq)
  have hcap : r.occ.toNat = r.cap.toNat := congrArg BitVec.toNat hfull
  omega

/-! ### ISEMPTY (42_queries.md R120) -/

theorem exec_isempty_of_unconfigured {s : State} (hc : s.regs.cfg = false) : exec .isempty s = .next s.fail :=
  State.useBuffer_unconfigured hc _

theorem exec_isempty_of_configured {s : State} (hc : s.regs.cfg = true) (hg : s.storageGone = false) :
    exec .isempty s = .next (s.respond true (if s.regs.head = s.regs.tail then 1 else 0) []) := by
  rw [← boolVal_eq_ite s.regs.empty_iff_head_eq_tail]
  exact State.useBuffer_ready hc hg _

/-! ### ISFULL (42_queries.md R122) -/

theorem exec_isfull_of_unconfigured {s : State} (hc : s.regs.cfg = false) : exec .isfull s = .next s.fail :=
  State.useBuffer_unconfigured hc _

theorem exec_isfull_of_configured {s : State} (hc : s.regs.cfg = true) (hg : s.storageGone = false) :
    exec .isfull s = .next (s.respond true (if s.regs.head - s.regs.tail = s.regs.cap then 1 else 0) []) := by
  rw [← boolVal_eq_ite s.regs.full_iff_sub_eq_cap]
  exact State.useBuffer_ready hc hg _

/-! ### OCC (42_queries.md R124) -/

theorem exec_occ_of_unconfigured {s : State} (hc : s.regs.cfg = false) : exec .occ s = .next s.fail :=
  State.useBuffer_unconfigured hc _

theorem exec_occ_of_configured {s : State} (hc : s.regs.cfg = true) (hg : s.storageGone = false) :
    exec .occ s = .next (s.respond true (s.regs.head - s.regs.tail) []) :=
  State.useBuffer_ready hc hg _

end Sys2Proof.Machine

open Sys2Proof Sys2Proof.Machine

/-- Settles O34: byte 0x05 decodes to ISEMPTY, whose predicate and EMPTY_O both hold exactly when HEAD and TAIL are equal. -/
theorem isemptyResult : Obligations.IsemptyResult := by
  intro s q hcmd
  have hdec : decode q = .isempty := decode_of_cmd_eq .isempty hcmd
  rw [hdec]
  exact ⟨exec_isempty_of_unconfigured, fun hc hb hs =>
    ⟨exec_isempty_of_configured hc (State.storageGone_eq_false hb hs), State.emptyO_iff_head_eq_tail hc⟩⟩

/-- Settles O35: byte 0x06 decodes to ISFULL, whose predicate and FULL_O both compare `HEAD -w TAIL` with CAP. -/
theorem isfullResult : Obligations.IsfullResult := by
  intro s q hcmd
  have hdec : decode q = .isfull := decode_of_cmd_eq .isfull hcmd
  rw [hdec]
  exact ⟨exec_isfull_of_unconfigured, fun hc hb hs =>
    ⟨exec_isfull_of_configured hc (State.storageGone_eq_false hb hs), State.fullO_iff_sub_eq_cap hc,
      fun hI => hI.head_ne_tail_of_sub_eq_cap hc⟩⟩

/-- Settles O36: byte 0x07 decodes to OCC, and INV bounds the occupancy by CAP. -/
theorem occResult : Obligations.OccResult := by
  intro s q hcmd
  have hdec : decode q = .occ := decode_of_cmd_eq .occ hcmd
  rw [hdec]
  exact ⟨exec_occ_of_unconfigured, fun hc hb hs =>
    ⟨exec_occ_of_configured hc (State.storageGone_eq_false hb hs), fun hI => hI.occ_le hc⟩⟩
end

section
/-! PROOFS. The bulk commands (43_bulk.md R130 to R135): the bytes an enqueue of several elements leaves in storage, the
status outputs once a counter has advanced by `k`, the meaning of each command, and the statements about ENQN and DEQN. -/

namespace Sys2Proof.Machine

variable {p : Params}

/-! ### What an enqueue of several elements leaves in storage (43_bulk.md R130, R132) -/

/-- Element `i` of an enqueue that fits lies at the `i`-th write slot afterwards. -/
theorem Regs.Inv.elemAt_enqCells_new {r : Regs p} (h : r.Inv) (hc : r.cfg = true) (m : Memory) {es : List Elem}
    (hes : ∀ e ∈ es, e.length = r.esize.toNat) (hfit : r.occ.toNat + es.length ≤ r.cap.toNat) {i : Nat} {e : Elem}
    (he : es[i]? = some e) : r.elemAt (m.writeCells (r.enqCells 0 es)) (r.occ.toNat + i) = e := by
  obtain ⟨hi, -⟩ := List.getElem?_eq_some_iff.1 he
  have hall := congrArg (·[i]?) (h.elemsFrom_enqCells_new hc m (i := 0) hes hfit)
  simpa only [Regs.getElem?_elemsFrom, if_pos hi, Nat.add_zero, he, Option.some.injEq] using hall

theorem Regs.Inv.read_enqCells_add {r : Regs p} (h : r.Inv) (hc : r.cfg = true) (m : Memory) {es : List Elem}
    (hes : ∀ e ∈ es, e.length = r.esize.toNat) (hfit : r.occ.toNat + es.length ≤ r.cap.toNat) {i j : Nat} {e : Elem}
    (he : es[i]? = some e) (hj : j < r.esize.toNat) :
    some ((m.writeCells (r.enqCells 0 es)).read (r.enqAddr i + j)) = e[j]? := by
  rw [r.enqAddr_eq_deqAddr, ← Regs.getElem?_elemAt _ _ _ hj, h.elemAt_enqCells_new hc m hes hfit he]

theorem Regs.read_enqCells_outside (r : Regs p) (m : Memory) {es : List Elem}
    (hes : ∀ e ∈ es, e.length = r.esize.toNat) {a : Nat}
    (ha : ∀ i, i < es.length → a < r.enqAddr i ∨ r.enqAddr i + r.esize.toNat ≤ a) :
    (m.writeCells (r.enqCells 0 es)).read a = m.read a := by
  refine Memory.read_writeCells_of_not_touched m fun c hcell heq => ?_
  obtain ⟨i, e, he, hlo, hhi⟩ := Regs.mem_enqCells hcell
  obtain ⟨hi, -⟩ := List.getElem?_eq_some_iff.1 he
  rw [hes e (List.mem_of_getElem? he)] at hhi
  have := ha i hi
  rw [Nat.zero_add] at hlo hhi
  omega

/-! ### The status outputs once a counter has advanced by `k` (10_state.md R36) -/

theorem State.outputs_head_add {s t : State} (hI : s.regs.Inv) (hc : s.regs.cfg = true) {k : Nat}
    (hfit : s.regs.occ.toNat + k ≤ s.regs.cap.toNat) {m : Memory} {x : Option (Response s.params)}
    (ht : t = { s with regs := { s.regs with head := s.regs.head + BitVec.ofNat _ k }, mem := m, rsp := x }) :
    (1 ≤ k → t.emptyO = false) ∧
    (t.fullO = true ↔ (k = s.regs.space.toNat ∧ 1 ≤ s.regs.space.toNat) ∨ s.fullO = true) := by
  have hspace : s.regs.space.toNat = s.regs.cap.toNat - s.regs.occ.toNat := hI.space_toNat hc
  have hocc : t.regs.occ.toNat = s.regs.occ.toNat + k := by
    subst ht; exact s.regs.occ_add_head (hfit.trans_lt s.regs.cap.isLt)
  have hcfg : t.regs.cfg = true := by rw [ht]; exact hc
  have hsame : t.regs.cap.toNat = s.regs.cap.toNat := by rw [ht]
  rw [Bool.eq_false_iff, ne_eq, State.emptyO_iff_of_occ hocc hcfg, State.fullO_iff_of_occ hocc hcfg,
    State.fullO_iff_of_occ rfl hc, hsame]
  omega

theorem State.outputs_tail_add {s t : State} (hI : s.regs.Inv) (hc : s.regs.cfg = true) {k : Nat}
    (hk : k ≤ s.regs.occ.toNat) {x : Option (Response s.params)}
    (ht : t = { s with regs := { s.regs with tail := s.regs.tail + BitVec.ofNat _ k }, rsp := x }) :
    (1 ≤ k → t.fullO = false) ∧
    (t.emptyO = true ↔ (k = s.regs.occ.toNat ∧ 1 ≤ s.regs.occ.toNat) ∨ s.emptyO = true) := by
  have hle : s.regs.occ.toNat ≤ s.regs.cap.toNat := hI.occ_le hc
  have hocc : t.regs.occ.toNat = s.regs.occ.toNat - k := by
    subst ht; exact s.regs.occ_add_tail hk
  have hcfg : t.regs.cfg = true := by rw [ht]; exact hc
  have hsame : t.regs.cap.toNat = s.regs.cap.toNat := by rw [ht]
  rw [Bool.eq_false_iff, ne_eq, State.fullO_iff_of_occ hocc hcfg, State.emptyO_iff_of_occ hocc hcfg,
    State.emptyO_iff_of_occ rfl hc, hsame]
  omega

/-! ### ENQN (43_bulk.md R130, R132) -/

theorem exec_enqn_of_unconfigured {s : State} (hc : s.regs.cfg = false) (n : Nat) (data : List Elem) :
    exec (.enqn n data) s = .next s.fail := State.useBuffer_unconfigured hc _

theorem exec_enqn_of_dataOk {s : State} (hc : s.regs.cfg = true) (hg : s.storageGone = false) {n : Nat} {data : List Elem}
    (hd : s.dataOk n data = true) :
    exec (.enqn n data) s = s.enqueue (data.take (min n s.regs.space.toNat)) (min n s.regs.space.toNat) := by
  simp only [exec, execEnqn, State.useBuffer_ready hc hg, hd, Bool.true_eq_false, if_false]

/-! ### DEQN (43_bulk.md R135) -/

/-- Element `i` of a read from the oldest one upward is the one at logical position `i` (43_bulk.md R135, R137). -/
theorem Regs.eq_elemAt_of_getElem?_elemsFrom {r : Regs p} {m : Memory} {k i : Nat} {e : Elem}
    (h : (r.elemsFrom m 0 k)[i]? = some e) : e = r.elemAt m i := by
  rw [Regs.getElem?_elemsFrom, Nat.zero_add] at h
  split at h
  · exact (Option.some.inj h).symm
  · cases h

theorem exec_deqn_of_unconfigured {s : State} (hc : s.regs.cfg = false) (n : Nat) :
    exec (.deqn n) s = .next s.fail := State.useBuffer_unconfigured hc _

theorem exec_deqn_of_configured {s : State} (hc : s.regs.cfg = true) (hg : s.storageGone = false) (n : Nat) :
    exec (.deqn n) s = s.dequeue (min n s.regs.occ.toNat) (min n s.regs.occ.toNat) := State.useBuffer_ready hc hg _

end Sys2Proof.Machine

open Sys2Proof Sys2Proof.Machine

/-- Settles O38: byte 0x08 decodes to ENQN of operand B and the write data, which is an enqueue of the first
`k = min(n, SPACE)` elements. These fit, so each lies at its own write slot afterwards, and the occupancy rises by `k`. -/
theorem enqnEffect : Obligations.EnqnEffect := by
  intro s q hcmd
  have hdec : decode q = .enqn q.b.toNat q.d := decode_of_cmd_eq .enqn hcmd
  rw [hdec]
  refine ⟨fun hc => exec_enqn_of_unconfigured hc _ _, fun hI hc hb hs hlen hdata => ?_⟩
  obtain ⟨hgone, herr⟩ := State.storage_answers hb hs
  have hfit := hI.occ_add_min_space hc q.b.toNat
  have hexec := exec_enqn_of_dataOk hc hgone (dataShaped_iff.2 ⟨hlen, hdata⟩)
  generalize hk : min q.b.toNat s.regs.space.toNat = k at hfit hexec
  have hes : ∀ e ∈ q.d.take k, e.length = s.regs.esize.toNat := fun e he => hdata e (List.mem_of_mem_take he)
  have hcount : (q.d.take k).length = k := List.length_take_of_le (by omega)
  rw [State.enqueue_next hI hc herr, hcount] at hexec
  obtain ⟨hempty, hfull⟩ := State.outputs_head_add hI hc hfit rfl
  refine ⟨s.regs.enqAddr, k, s.regs.space.toNat, _, _, hI.space_toNat hc, hk.symm, fun _ => rfl, rfl, hexec,
    fun i e j hi he hj => ?_, fun a ha => ?_, hempty, hfull, fun hzero => ?_⟩
  · exact hI.read_enqCells_add hc s.mem hes (by rwa [hcount]) (by rwa [List.getElem?_take_of_lt hi]) hj
  · exact s.regs.read_enqCells_outside s.mem hes (by rwa [hcount])
  · subst hzero
    exact ⟨Memory.writeCells_nil s.mem, congrArg BitVec.toNat (BitVec.add_zero s.regs.head)⟩

/-- Settles O39: byte 0x09 decodes to DEQN of operand B, which is a dequeue of the `k = min(n, OCC)` oldest elements, read in
order from the slot of TAIL upward, and lowers the occupancy by `k`. -/
theorem deqnEffect : Obligations.DeqnEffect := by
  intro s q hcmd
  have hdec : decode q = .deqn q.b.toNat := decode_of_cmd_eq .deqn hcmd
  rw [hdec]
  refine ⟨fun hc => exec_deqn_of_unconfigured hc _, fun hI hc hb hs => ?_⟩
  obtain ⟨hgone, herr⟩ := State.storage_answers hb hs
  have hexec := exec_deqn_of_configured hc hgone q.b.toNat
  have hk : min q.b.toNat s.regs.occ.toNat ≤ s.regs.occ.toNat := Nat.min_le_right ..
  rw [State.dequeue_next hI hc herr] at hexec
  refine ⟨_, s.regs.elemsFrom s.mem 0 _, _, rfl, rfl, hexec, Regs.elemsFrom_length .., fun e he => ?_,
    fun i e j he hj => ?_, State.outputs_tail_add hI hc hk rfl⟩
  · obtain ⟨i, hi⟩ := List.getElem?_of_mem he
    rw [Regs.eq_elemAt_of_getElem?_elemsFrom hi, Regs.elemAt_length]
  · rw [Regs.eq_elemAt_of_getElem?_elemsFrom he, Regs.getElem?_elemAt _ _ _ hj]
    rfl
end

section
/-! PROOFS. Failures (60_exceptions.md R150 to R153): each command's own cause of failure, which results answer `OK = 0`, that a
command fails for a cause and for no other reason, how the causes read as rows of the failure table, and the two statements
about failures. -/

namespace Sys2Proof

/-! ### Which byte carries INIT (30_encoding.md R75) -/

theorem isInit_decode_iff {p : Params} (q : Request p) : (decode q).isInit = true ↔ q.cmd = 0x01 := by
  cases hrow : decodeCmd q.cmd with
  | none =>
    rw [decode_of_decodeCmd_eq_none hrow]
    refine iff_of_false Bool.false_ne_true fun hcmd => ?_
    rw [hcmd] at hrow
    exact absurd hrow (by decide)
  | some o =>
    have hcmd : q.cmd = o.cmd := (decodeCmd_eq_some_iff q.cmd o).1 hrow
    rw [decode_of_cmd_eq o hcmd, hcmd]
    cases o <;> simp [Opcode.commandOf, Instr.isInit, Opcode.cmd]

theorem isInit_decode_eq_false_iff {p : Params} (q : Request p) : (decode q).isInit = false ↔ q.cmd ≠ 0x01 := by
  rw [← Bool.not_eq_true, isInit_decode_iff]

/-! ### The cause of failure that each command tests itself (60_exceptions.md R151) -/

/-- A command's own cause of failure, beside that the block is not configured. -/
def Instr.FailureCause (s : Machine.State) : Instr → Prop
  | .init base esize num =>
    ¬ Machine.initValid (s.addrOperand base) (s.countOperand esize) (s.countOperand num) = true
  | .enq _ => s.regs.full = true
  | .deq => s.regs.empty = true
  | .peek idx => s.regs.empty = true ∨ s.regs.occ.toNat ≤ idx
  | .isempty | .isfull | .occ | .enqn _ _ | .deqn _ => False
  | .reserved _ => True

namespace Machine

/-! ### Results that answer `OK = 0` (60_exceptions.md R150) -/

/-- The result is a response with `OK = 0`. -/
def Fails (r : Result) : Prop := ∃ val rdata, responseOf r = some (false, val, rdata)

theorem fails_fail (s : State) : Fails (.next s.fail) := ⟨_, _, rfl⟩

theorem not_fails_refused (c : Refusal) : ¬ Fails (.refused c) := fun ⟨_, _, h⟩ => nomatch h

theorem not_fails_fault (c : Fault) : ¬ Fails (.fault c) := fun ⟨_, _, h⟩ => nomatch h

theorem not_fails_next {t : State} {x : Response t.params} (ht : t.rsp = some x) (hx : x.ok = true) :
    ¬ Fails (.next t) := by
  rintro ⟨val, rdata, h⟩
  simp [responseOf, ht, hx] at h

theorem Fails.of_useBuffer {s : State} {body : Result} (h : Fails (s.useBuffer body)) :
    s.regs.cfg = false ∨ Fails body := by
  cases hc : s.regs.cfg with
  | false => exact .inl rfl
  | true =>
    cases hg : s.storageGone with
    | false => exact .inr (State.useBuffer_ready hc hg body ▸ h)
    | true => exact absurd (State.useBuffer_gone hc hg body ▸ h) (not_fails_refused _)

/-- The access check makes no response of its own: what it stops is a fault. -/
theorem Fails.of_access {s done : State} {xs : List (Nat × Nat)} (h : Fails (s.access xs done)) : Fails (.next done) := by
  cases hr : s.access xs done with
  | next t => exact State.access_eq_next hr ▸ hr ▸ h
  | fault c => exact absurd (hr ▸ h) (not_fails_fault c)
  | refused c => exact absurd (hr ▸ h) (not_fails_refused c)

theorem State.not_fails_enqueue (s : State) (es : List Elem) (val : Nat) : ¬ Fails (s.enqueue es val) :=
  fun h => not_fails_next rfl rfl (Fails.of_access h)

theorem State.not_fails_dequeue (s : State) (k val : Nat) : ¬ Fails (s.dequeue k val) :=
  fun h => not_fails_next rfl rfl (Fails.of_access h)

/-! ### A cause makes a command fail -/

theorem exec_of_unconfigured {i : Instr} {s : State} (hc : s.regs.cfg = false) (hi : i.isInit = false) :
    exec i s = .next s.fail := by
  cases i with
  | init => cases hi
  | reserved => exact exec_reserved _ s
  | enq | deq | peek | isempty | isfull | occ | enqn | deqn => exact State.useBuffer_unconfigured hc _

/-- INIT tests its cause in any state; another command gets to its test with write data of the right shape, on storage that was
not released (60_exceptions.md R153). -/
theorem exec_of_failureCause {i : Instr} {s : State}
    (hready : i.isInit = false → i.shaped s.regs.esize.toNat = true ∧ s.storageGone = false)
    (h : i.FailureCause s) : exec i s = .next s.fail := by
  cases i with
  | init => exact if_neg h
  | enq =>
    obtain ⟨hdata, hgone⟩ := hready rfl
    exact exec_enq_of_full hgone hdata h
  | deq =>
    obtain ⟨-, hgone⟩ := hready rfl
    exact exec_deq_of_empty hgone h
  | peek idx =>
    obtain ⟨-, hgone⟩ := hready rfl
    have hidx : s.regs.occ.toNat ≤ idx := h.elim (fun he => by rw [s.regs.empty_iff.1 he]; exact Nat.zero_le idx) id
    exact exec_peek_of_occ_le hgone hidx
  | isempty | isfull | occ | enqn | deqn => exact h.elim
  | reserved => exact exec_reserved _ s

/-! ### Nothing else does -/

/-- A command that answers `OK = 0` has a cause, in every state: malformed write data and released or erring storage give no
response at all. -/
theorem Fails.cause {i : Instr} {s : State} (h : Fails (exec i s)) :
    (s.regs.cfg = false ∧ i.isInit = false) ∨ i.FailureCause s := by
  cases i with
  | init =>
    refine .inr fun hvalid => ?_
    simp only [exec, execInit, if_pos hvalid] at h
    exact not_fails_next rfl rfl h
  | reserved => exact .inr trivial
  | enq data =>
    refine (Fails.of_useBuffer h).imp (⟨·, rfl⟩) fun h => ?_
    split at h
    · exact absurd h (not_fails_refused _)
    · split at h
      case isTrue hfull => exact hfull
      case isFalse => exact absurd h (s.not_fails_enqueue _ _)
  | deq =>
    refine (Fails.of_useBuffer h).imp (⟨·, rfl⟩) fun h => ?_
    split at h
    case isTrue hempty => exact hempty
    case isFalse => exact absurd h (s.not_fails_dequeue _ _)
  | peek idx =>
    refine (Fails.of_useBuffer h).imp (⟨·, rfl⟩) fun h => ?_
    split at h
    case isTrue hcause => exact (Bool.or_eq_true_iff.1 hcause).imp_right of_decide_eq_true
    case isFalse => exact absurd (Fails.of_access h) (not_fails_next rfl rfl)
  | isempty | isfull | occ =>
    exact (Fails.of_useBuffer h).imp (⟨·, rfl⟩) (not_fails_next rfl rfl)
  | enqn n data =>
    refine (Fails.of_useBuffer h).imp (⟨·, rfl⟩) fun h => ?_
    split at h
    · exact not_fails_refused _ h
    · exact s.not_fails_enqueue _ _ h
  | deqn n => exact (Fails.of_useBuffer h).imp (⟨·, rfl⟩) (s.not_fails_dequeue _ _)

/-! ### The causes as rows of the failure table (60_exceptions.md R151) -/

/-- The rows of the table are, for the command a request carries, that the block is not configured and its own cause. -/
theorem failureTable_iff (s : State) (q : Request s.params) :
    ((q.cmd.toNat < 1 ∨ 9 < q.cmd.toNat) ∨
      (s.regs.cfg = false ∧ q.cmd ≠ 0x01) ∨
      (q.cmd = 0x01 ∧ ¬ (q.a ≠ 0 ∧ 1 ≤ q.b.toNat ∧ q.c ≠ 0 ∧ (q.c - 1) &&& q.c = 0 ∧
        q.a.toNat + q.c.toNat * q.b.toNat ≤ 2 ^ s.params.addrW)) ∨
      (q.cmd = 0x02 ∧ s.regs.head - s.regs.tail = s.regs.cap) ∨
      (q.cmd = 0x03 ∧ s.regs.head - s.regs.tail = 0) ∨
      (q.cmd = 0x04 ∧ (s.regs.head - s.regs.tail = 0 ∨ (s.regs.head - s.regs.tail).toNat ≤ q.b.toNat))) ↔
    (s.regs.cfg = false ∧ (decode q).isInit = false) ∨ (decode q).FailureCause s := by
  rw [isInit_decode_eq_false_iff, ← initValid_iff, ← Regs.full_iff_sub_eq_cap, ← Regs.empty_iff_sub_eq_zero]
  cases hrow : decodeCmd q.cmd with
  | none =>
    have hcmd : q.cmd.toNat < 1 ∨ 9 < q.cmd.toNat := by
      have := (decodeCmd_eq_none_iff_toNat q.cmd).1 hrow
      omega
    rw [decode_of_decodeCmd_eq_none hrow]
    exact iff_of_true (.inl hcmd) (.inr trivial)
  | some o =>
    have hcmd : q.cmd = o.cmd := (decodeCmd_eq_some_iff q.cmd o).1 hrow
    rw [decode_of_cmd_eq o hcmd, hcmd]
    cases o <;> simp [Opcode.commandOf, Opcode.cmd, Instr.FailureCause, Regs.occ]

end Machine

end Sys2Proof

open Sys2Proof Sys2Proof.Machine

/-- Settles O42: byte 0x01 alone decodes to INIT, and while CFG = 0 every other command is FAIL. -/
theorem unconfiguredCommandsFail : Obligations.UnconfiguredCommandsFail :=
  fun _ q hc hcmd => exec_of_unconfigured hc ((isInit_decode_eq_false_iff q).2 hcmd)

/-- Settles O43: the rows are that the block is not configured and the command's own cause. Either makes the command FAIL, and a
command that answers `OK = 0` has one of them; the premise is what a command needs to get to the test of its own cause. -/
theorem failureCauses : Obligations.FailureCauses := by
  intro s q hpre
  rw [failureTable_iff]
  have hfail : (s.regs.cfg = false ∧ (decode q).isInit = false) ∨ (decode q).FailureCause s →
      exec (decode q) s = .next s.fail := by
    by_cases hun : s.regs.cfg = false ∧ (decode q).isInit = false
    · obtain ⟨hc, hi⟩ := hun
      exact fun _ => exec_of_unconfigured hc hi
    · refine fun h => exec_of_failureCause (fun hi => ?_) (h.resolve_left hun)
      rcases hpre with ⟨hdata, hb, hs⟩ | hc | hcmd
      · exact ⟨hdata, State.storageGone_eq_false hb hs⟩
      · exact absurd ⟨hc, hi⟩ hun
      · exact absurd hcmd ((isInit_decode_eq_false_iff q).1 hi)
  exact ⟨⟨Fails.cause, fun h => hfail h ▸ fails_fail s⟩, fun h => hfail (Fails.cause h)⟩
end

section
/-! PROOFS. The encoder and the decoder as each other's inverses (30_encoding.md sections 1 and 2): what is decoded fits its
fields, the row that a decoded command belongs to, the round trip of every well-formed command, and the statements about
both. -/

namespace Sys2Proof

variable {p : Params}

/-! ### The row of a decoded command (30_encoding.md R80) -/

@[simp] theorem Opcode.opcode_commandOf (o : Opcode) (q : Request p) : (o.commandOf q).opcode = some o := by
  cases o <;> rfl

/-- A decoded command belongs to the row that its byte selects. -/
theorem opcode_decode (q : Request p) : (decode q).opcode = decodeCmd q.cmd := by
  cases hrow : decodeCmd q.cmd with
  | none => rw [decode_of_decodeCmd_eq_none hrow]; rfl
  | some o => rw [decode_of_cmd_eq o ((decodeCmd_eq_some_iff q.cmd o).1 hrow), Opcode.opcode_commandOf]

theorem opcode_decode_eq_some_iff (q : Request p) (o : Opcode) : (decode q).opcode = some o ↔ q.cmd = o.cmd := by
  rw [opcode_decode, decodeCmd_eq_some_iff]

theorem decode_eq_reserved_iff (q : Request p) : decode q = .reserved q.cmd ↔ decodeCmd q.cmd = none :=
  ⟨fun h => by rw [← opcode_decode, h]; rfl, decode_of_decodeCmd_eq_none⟩

/-! ### The operands of a decoded command (30_encoding.md R74) -/

/-- The operands of a command come from fields of their own widths. -/
theorem Opcode.wellFormed_commandOf (o : Opcode) (q : Request p) : (o.commandOf q).wellFormed p = true := by
  have ha := q.a.isLt
  have hb := q.b.isLt
  have hc := q.c.isLt
  cases o <;> simp [Opcode.commandOf, Instr.wellFormed, ha, hb, hc]

theorem wellFormed_decode (q : Request p) : (decode q).wellFormed p = true := by
  cases hrow : decodeCmd q.cmd with
  | none => rw [decode_of_decodeCmd_eq_none hrow]; exact Option.isNone_iff_eq_none.2 hrow
  | some o =>
    rw [decode_of_cmd_eq o ((decodeCmd_eq_some_iff q.cmd o).1 hrow)]
    exact o.wellFormed_commandOf q

/-! ### The operands of an encoded command (30_encoding.md R73) -/

/-- An operand that fits its field comes back out of it. -/
theorem toNat_ofNat_of_fits {w n : Nat} (h : decide (n < 2 ^ w) = true) : (BitVec.ofNat w n).toNat = n := by
  rw [BitVec.toNat_ofNat, Nat.mod_eq_of_lt (of_decide_eq_true h)]

theorem decode_encode {i : Instr} (h : i.wellFormed p = true) : decode (encode p i) = i := by
  cases i with
  | init base esize num =>
    obtain ⟨hfit, hnum⟩ := Bool.and_eq_true_iff.1 h
    obtain ⟨hbase, hesize⟩ := Bool.and_eq_true_iff.1 hfit
    rw [decode_of_cmd_eq .init rfl]
    simp only [Opcode.commandOf, encode, toNat_ofNat_of_fits hbase, toNat_ofNat_of_fits hesize, toNat_ofNat_of_fits hnum]
  | enq data => exact decode_of_cmd_eq .enq rfl
  | deq => exact decode_of_cmd_eq .deq rfl
  | peek idx =>
    rw [decode_of_cmd_eq .peek rfl]
    simp only [Opcode.commandOf, encode, toNat_ofNat_of_fits h]
  | isempty => exact decode_of_cmd_eq .isempty rfl
  | isfull => exact decode_of_cmd_eq .isfull rfl
  | occ => exact decode_of_cmd_eq .occ rfl
  | enqn n data =>
    rw [decode_of_cmd_eq .enqn rfl]
    simp only [Opcode.commandOf, encode, toNat_ofNat_of_fits h]
  | deqn n =>
    rw [decode_of_cmd_eq .deqn rfl]
    simp only [Opcode.commandOf, encode, toNat_ofNat_of_fits h]
  | reserved cmd => exact decode_of_decodeCmd_eq_none (Option.isNone_iff_eq_none.1 h)

end Sys2Proof

open Sys2Proof Sys2Proof.Machine

/-- Settles O2: the encoder writes the byte of the command's own row, and each operand fits the field it is written to. -/
theorem decodeEncodeRoundTrip : Obligations.DecodeEncodeRoundTrip := fun _ _ h => decode_encode h

/-- Settles O3: the row of a byte is none exactly outside 0x01 to 0x09, and the decoded command is of that row. -/
theorem decoderIsTotal : Obligations.DecoderIsTotal := by
  intro p q
  have hnone : decodeCmd q.cmd = none ↔ ¬ (0x01 ≤ q.cmd.toNat ∧ q.cmd.toNat ≤ 0x09) := by
    rw [decodeCmd_eq_none_iff_toNat]
    omega
  refine ⟨wellFormed_decode q, ?_, (decode_eq_reserved_iff q).trans hnone⟩
  rw [← not_iff_not, ← hnone, Option.eq_none_iff_forall_ne_some, not_exists]
  refine forall_congr' fun o => not_congr ?_
  rw [opcode_decode_eq_some_iff, decodeCmd_eq_some_iff, eq_comm (a := o.cmd), and_self]
end

section
/-! PROOFS. The arithmetic of the registers (10_state.md sections 3 and 5, 20_memory.md section 2, 40_configuration.md R94,
42_queries.md R125): the capacity test, counters and slots, the tiling of the region, and the statements about them. -/

namespace Sys2Proof.Machine

variable {p : Params}

/-! ### The capacity test (40_configuration.md R94) -/

theorem toNat_sub_one_of_ne_zero {w : Nat} {c : BitVec w} (hc : c ≠ 0) : (c - 1).toNat = c.toNat - 1 := by
  have hpos : 1 ≤ c.toNat := Nat.one_le_iff_ne_zero.2 (BitVec.toNat_ne.1 hc)
  have hw : 1 < 2 ^ w := hpos.trans_lt c.isLt
  have hone : (1 : BitVec w).toNat = 1 := Nat.mod_eq_of_lt hw
  rw [BitVec.toNat_sub_of_le (BitVec.le_def.2 (hone.trans_le hpos)), hone]

/-- The bit test on a `W`-bit value is the bit test on the number. -/
theorem powerOfTwo_iff_isPowerOfTwo {w : Nat} (c : BitVec w) : powerOfTwo c = true ↔ c.toNat.isPowerOfTwo := by
  have hzero : ∀ x : BitVec w, x = 0 ↔ x.toNat = 0 := fun _ => BitVec.toNat_inj.symm
  rw [powerOfTwo_iff, ← Nat.ne_zero_and_sub_one_eq_zero_iff_isPowerOfTwo, Nat.and_comm c.toNat, ne_eq c.toNat, ← hzero]
  refine and_congr_right fun hc => ?_
  rw [hzero, BitVec.toNat_and, toNat_sub_one_of_ne_zero hc]

/-! ### Counters (10_state.md section 3) -/

/-- A slot depends on its counter value only through the value's remainder modulo `CAP`. -/
theorem Regs.Inv.slot_add_eq_slot_add_mod {r : Regs p} (h : r.Inv) (hc : r.cfg = true) (c : BitVec p.ctrW) (n : Nat) :
    (r.slot (c + BitVec.ofNat p.ctrW n)).toNat = ((r.slot c).toNat + n) % r.cap.toNat := by
  rw [h.slot_add_toNat hc, h.slot_toNat hc, Nat.mod_add_mod]

/-- Masking a wrapped count is the remainder of the unbounded one, because `CAP` divides `2^W`. -/
theorem Regs.Inv.and_cap_sub_one {r : Regs p} (h : r.Inv) (hc : r.cfg = true) (n : Nat) :
    (n % 2 ^ p.ctrW) &&& (r.cap.toNat - 1) = n % r.cap.toNat := by
  have hdvd := h.cap_dvd hc
  obtain ⟨j, -, hcap⟩ := h.capPow hc
  rw [hcap] at hdvd ⊢
  rw [Nat.and_two_pow_sub_one_eq_mod, Nat.mod_mod_of_dvd _ hdvd]

/-- The wrapped difference of two counts less than `2^W` apart is their true difference. -/
theorem toNat_ofNat_add_sub_ofNat {w c n : Nat} (hn : n < 2 ^ w) :
    (BitVec.ofNat w (c + n) - BitVec.ofNat w c).toNat = n := by
  rw [BitVec.ofNat_add, BitVec.add_comm, BitVec.add_sub_cancel, BitVec.toNat_ofNat, Nat.mod_eq_of_lt hn]

/-! ### The slots (20_memory.md section 2) -/

/-- An address in a slot determines the slot: it is the quotient of the offset from BASE by ESIZE. -/
theorem Regs.slot_eq_div {r : Regs p} {a x : Nat} (hlo : r.saddr x ≤ a) (hhi : a < r.saddr x + r.esize.toNat) :
    x = (a - r.base.toNat) / r.esize.toNat := by
  have hoff : x * r.esize.toNat ≤ a - r.base.toNat ∧ a - r.base.toNat < (x + 1) * r.esize.toNat := by
    rw [Nat.succ_mul]
    simp only [Regs.saddr] at hlo hhi
    omega
  exact (Nat.div_eq_of_lt_le hoff.1 hoff.2).symm

/-- A slot below `CAP` lies inside the region. -/
theorem Regs.saddr_add_le {r : Regs p} {x : Nat} (hx : x < r.cap.toNat) :
    r.saddr x + r.esize.toNat ≤ r.base.toNat + r.cap.toNat * r.esize.toNat := by
  have := Nat.mul_le_mul_right r.esize.toNat (Nat.succ_le_of_lt hx)
  rw [Nat.succ_mul] at this
  simp only [Regs.saddr]
  omega

/-- Every address of the region lies in a slot. -/
theorem Regs.exists_slot_of_mem_region {r : Regs p} (he : 1 ≤ r.esize.toNat) {a : Nat} (hlo : r.base.toNat ≤ a)
    (hhi : a < r.base.toNat + r.cap.toNat * r.esize.toNat) :
    ∃ x, x < r.cap.toNat ∧ r.saddr x ≤ a ∧ a < r.saddr x + r.esize.toNat := by
  refine ⟨(a - r.base.toNat) / r.esize.toNat, (Nat.div_lt_iff_lt_mul he).2 (by omega), ?_⟩
  have hdiv := Nat.div_add_mod' (a - r.base.toNat) r.esize.toNat
  have hmod := Nat.mod_lt (a - r.base.toNat) he
  simp only [Regs.saddr]
  omega

theorem Regs.base_le_saddr (r : Regs p) (x : Nat) : r.base.toNat ≤ r.saddr x := Nat.le_add_right ..

/-! ### The queries (42_queries.md R125) -/

/-- A boolean result as a number. -/
theorem toNat_ite_one_zero (p : Params) (P : Prop) [Decidable P] :
    (if P then (1 : BitVec p.ctrW) else 0).toNat = if P then 1 else 0 := by
  split
  · exact BitVec.toNat_one p.ctrW_pos
  · rfl

end Sys2Proof.Machine

open Sys2Proof Sys2Proof.Machine

/-- Settles O26: the bit test holds of the powers of two, and one of `W` bits has its exponent below `W`. -/
theorem capacityTestAcceptsPowersOfTwo : Obligations.CapacityTestAcceptsPowersOfTwo := by
  intro p c
  rw [powerOfTwo_iff_isPowerOfTwo]
  refine exists_congr fun j => ⟨fun hj => ⟨?_, hj⟩, And.right⟩
  have hlt : 2 ^ j < 2 ^ p.ctrW := hj ▸ c.isLt
  exact (Nat.pow_lt_pow_iff_right (by decide)).1 hlt

/-- Settles O15: `CAP` divides `2^W`, so masking a wrapped count is taking its remainder modulo `CAP`; and `CAP` is less than
`2^W`. -/
theorem wraparoundLaw : Obligations.WraparoundLaw := fun _ r hI hc c n =>
  ⟨hI.and_cap_sub_one hc (c + n), hI.slot_add_eq_slot_add_mod hc _ n,
    fun hn => toNat_ofNat_add_sub_ofNat (hn.trans_lt r.cap.isLt)⟩

/-- Settles O16: twice `CAP` is at most `2^W`; the outputs compare `HEAD -w TAIL` with 0 and with `CAP`, which is not 0. -/
theorem emptyAndFullAreExclusive : Obligations.EmptyAndFullAreExclusive := by
  intro s hI hc
  have hcap : 2 * s.regs.cap.toNat ≤ 2 * 2 ^ (s.params.ctrW - 1) := by
    rw [← Nat.pow_succ', Nat.succ_eq_add_one, Nat.sub_add_cancel s.params.ctrW_pos]
    exact hI.two_cap_le hc
  have hempty := State.emptyO_iff_head_eq_tail hc
  have hfull := State.fullO_iff_sub_eq_cap hc
  refine ⟨Nat.le_of_mul_le_mul_left hcap (by decide), fun ⟨he, hf⟩ => ?_, hempty, ?_⟩
  · exact hI.head_ne_tail_of_sub_eq_cap hc (hfull.1 hf) (hempty.1 he)
  · rw [hfull, BitVec.sub_eq_iff_eq_add, BitVec.add_comm]

/-- Settles O18: the slot of an address is the quotient of its offset by ESIZE, which is below `CAP` inside the region; the
region starts above 0 and ends by `2^AW`. -/
theorem slotsTileTheRegion : Obligations.SlotsTileTheRegion := by
  intro p r hI hc
  refine ⟨fun a => ⟨fun ⟨hlo, hhi⟩ => Regs.exists_slot_of_mem_region (hI.esize_pos hc) hlo hhi, ?_⟩,
    fun a x y hxlo hxhi hylo hyhi => ?_, fun x hx => ⟨?_, ?_⟩⟩
  · rintro ⟨x, hx, hlo, hhi⟩
    exact ⟨(r.base_le_saddr x).trans hlo, hhi.trans_le (Regs.saddr_add_le hx)⟩
  · rw [Regs.slot_eq_div hxlo hxhi, Regs.slot_eq_div hylo hyhi]
  · exact (hI.base_pos hc).trans (r.base_le_saddr x)
  · exact (Regs.saddr_add_le hx).trans (hI.region_le hc)

/-- Settles O37: each query's result is its predicate on `HEAD -w TAIL`, and the occupancy is not both 0 and `CAP`. -/
theorem queriesAreConsistent : Obligations.QueriesAreConsistent := by
  intro s hI hc hb hs
  have hgone := State.storageGone_eq_false hb hs
  refine ⟨if s.regs.head = s.regs.tail then 1 else 0, if s.regs.head - s.regs.tail = s.regs.cap then 1 else 0,
    s.regs.occ.toNat, ?_, ?_, ?_, ?_, ?_, ?_⟩
  · rw [exec_isempty_of_configured hc hgone, ← toNat_ite_one_zero]; rfl
  · rw [exec_isfull_of_configured hc hgone, ← toNat_ite_one_zero]; rfl
  · rw [exec_occ_of_configured hc hgone]; rfl
  · rw [← s.regs.empty_iff, s.regs.empty_iff_head_eq_tail]; simp
  · rw [← s.regs.full_iff, s.regs.full_iff_sub_eq_cap]; simp
  · have hboth := hI.head_ne_tail_of_sub_eq_cap hc
    split_ifs with hempty hfull
    · exact absurd hempty (hboth hfull)
    all_goals decide
end

section
/-! PROOFS. The effect of a command: the four forms that a next state can have, what each does to the counters, and that every
command, race, abandoned command and step keeps INV and the storage form (10_state.md section 5). -/

namespace Sys2Proof

/-! ### Commands that store, and commands that remove (10_state.md R20, R21) -/

theorem Instr.removes_iff_opcode (i : Instr) : i.removes = true ↔ i.opcode = some .deq ∨ i.opcode = some .deqn := by
  cases i <;> simp [Instr.removes, Instr.opcode]

namespace Machine

variable {i : Instr} {s t : State}

/-- The stores of a command are those of the elements it stores. -/
theorem storedCells_eq_enqCells (i : Instr) (s : State) : storedCells i s = s.regs.enqCells 0 (storedElems i s) := by
  cases i with
  | enq data => simp only [storedCells, storedElems]; split <;> rfl
  | enqn n data => simp only [storedCells, storedElems]; split <;> rfl
  | init | deq | peek | isempty | isfull | occ | deqn | reserved => rfl

theorem storedElems_eq_nil (h : elemsStored i s = 0) : storedElems i s = [] := by
  cases i with
  | enq data =>
    refine if_neg fun hroom => ?_
    simp [elemsStored, hroom] at h
  | enqn n data =>
    simp only [elemsStored] at h
    simp only [storedElems]
    split
    case isTrue hc => rw [(if_pos hc).symm.trans h, List.take_zero]
    case isFalse => rfl
  | init | deq | peek | isempty | isfull | occ | deqn | reserved => rfl

theorem elemsStored_eq_zero_of_opcode (h : i.opcode = some .deq ∨ i.opcode = some .deqn) : elemsStored i s = 0 := by
  cases i with
  | deq | deqn => rfl
  | init | enq | peek | isempty | isfull | occ | enqn | reserved => rcases h with h | h <;> cases h

theorem elemsRemoved_eq_zero_of_opcode (h : i.opcode = some .enq ∨ i.opcode = some .enqn) : elemsRemoved i s = 0 := by
  cases i with
  | enq | enqn => rfl
  | init | deq | peek | isempty | isfull | occ | deqn | reserved => rcases h with h | h <;> cases h

theorem elemsStored_of_unconfigured (hc : s.regs.cfg = false) (i : Instr) : elemsStored i s = 0 := by
  cases i <;> simp [elemsStored, hc]

theorem elemsRemoved_of_unconfigured (hc : s.regs.cfg = false) (i : Instr) : elemsRemoved i s = 0 := by
  cases i <;> simp [elemsRemoved, hc]

/-- What a command stores fits. -/
theorem occ_add_elemsStored_le (hI : s.regs.Inv) (hc : s.regs.cfg = true) (i : Instr) :
    s.regs.occ.toNat + elemsStored i s ≤ s.regs.cap.toNat := by
  have hle := hI.occ_le hc
  cases i with
  | enq data =>
    simp only [elemsStored]
    split
    case isTrue hroom =>
      obtain ⟨-, hfull⟩ := Bool.and_eq_true_iff.1 hroom
      exact hI.occ_lt_of_not_full hc (by simpa using hfull)
    case isFalse => exact hle
  | enqn n data => rw [elemsStored, if_pos hc]; exact hI.occ_add_min_space hc n
  | init | deq | peek | isempty | isfull | occ | deqn | reserved => exact hle

/-- What a command removes is there. -/
theorem elemsRemoved_le_occ (i : Instr) (s : State) : elemsRemoved i s ≤ s.regs.occ.toNat := by
  cases i with
  | deq =>
    simp only [elemsRemoved]
    split
    case isTrue hsome =>
      obtain ⟨-, hempty⟩ := Bool.and_eq_true_iff.1 hsome
      exact Nat.one_le_iff_ne_zero.2 (mt s.regs.empty_iff.2 (by simpa using hempty))
    case isFalse => exact Nat.zero_le _
  | deqn n =>
    simp only [elemsRemoved]
    split
    · exact Nat.min_le_right ..
    · exact Nat.zero_le _
  | init | enq | peek | isempty | isfull | occ | enqn | reserved => exact Nat.zero_le _

/-! ### The four forms of a next state -/

/-- The state an enqueue of `es` leaves (41_single_element.md R100, 43_bulk.md R130). -/
abbrev State.enqueued (s : State) (es : List Elem) (val : Nat) : State :=
  { s with
    mem := s.mem.writeCells (s.regs.enqCells 0 es)
    regs := { s.regs with head := s.regs.head + BitVec.ofNat s.params.ctrW es.length }
    rsp := some { ok := true, val := BitVec.ofNat s.params.ctrW val, r := [] } }

/-- The state a dequeue of `k` elements leaves (41_single_element.md R104, 43_bulk.md R135). -/
abbrev State.dequeued (s : State) (k val : Nat) : State :=
  { s with
    regs := { s.regs with tail := s.regs.tail + BitVec.ofNat s.params.ctrW k }
    rsp := some { ok := true, val := BitVec.ofNat s.params.ctrW val, r := s.regs.elemsFrom s.mem 0 k } }

/-- What a command that answers a next state has done: it answered and moved no element, or it is a valid INIT, or it stored
its elements, or it removed them. -/
inductive Effect (i : Instr) (s : State) : State → Prop
  | answered (x : Response s.params) (hstored : elemsStored i s = 0) (hremoved : elemsRemoved i s = 0)
      (hr : i.removes = true → x.r = []) : Effect i s { s with rsp := some x }
  | configured (base esize num : Nat) (hi : i = .init base esize num)
      (hvalid : initValid (s.addrOperand base) (s.countOperand esize) (s.countOperand num) = true) :
      Effect i s { s with
        regs := { base := s.addrOperand base, esize := s.countOperand esize, cap := s.countOperand num,
                  head := 0, tail := 0, cfg := true }
        rsp := some { ok := true, val := 0, r := [] }
        stale := false }
  | enqueued (es : List Elem) (val : Nat) (ho : i.opcode = some .enq ∨ i.opcode = some .enqn) (hc : s.regs.cfg = true)
      (hes : storedElems i s = es) (hsized : ∀ e ∈ es, e.length = s.regs.esize.toNat)
      (hcount : elemsStored i s = es.length) : Effect i s (s.enqueued es val)
  | dequeued (k val : Nat) (ho : i.opcode = some .deq ∨ i.opcode = some .deqn) (hc : s.regs.cfg = true)
      (hk : elemsRemoved i s = k) : Effect i s (s.dequeued k val)

theorem Effect.fail (hstored : elemsStored i s = 0) (hremoved : elemsRemoved i s = 0) : Effect i s s.fail :=
  .answered _ hstored hremoved fun _ => rfl

/-- The guard adds one way to end: FAIL on a block that is not configured. -/
theorem Effect.of_useBuffer {body : Result} (h : s.useBuffer body = .next t)
    (hbody : s.regs.cfg = true → body = .next t → Effect i s t) : Effect i s t := by
  rcases State.useBuffer_eq_next h with ⟨hc, rfl⟩ | ⟨hc, -, h⟩
  · exact .fail (elemsStored_of_unconfigured hc i) (elemsRemoved_of_unconfigured hc i)
  · exact hbody hc h

/-- Everything a command can do, when it answers a next state. -/
theorem Effect.of_exec (h : exec i s = .next t) : Effect i s t := by
  cases i with
  | init base esize num =>
    simp only [exec, execInit] at h
    split at h
    case isTrue hvalid => cases h; exact .configured base esize num rfl hvalid
    case isFalse => cases h; exact .fail rfl rfl
  | enq data =>
    refine .of_useBuffer h fun hc h => ?_
    split at h
    · cases h
    case isFalse hdata =>
      obtain ⟨hlen, hsized⟩ := dataShaped_iff.1 (Bool.eq_true_of_not_eq_false hdata)
      split at h
      case isTrue hfull => cases h; exact .fail (by simp [elemsStored, hfull]) rfl
      case isFalse hfull =>
        have hroom : (s.regs.cfg && !s.regs.full) = true := by simp [hc, hfull]
        rw [State.enqueue_eq_next h]
        exact .enqueued data 0 (.inl rfl) hc (if_pos hroom) hsized ((if_pos hroom).trans hlen.symm)
  | deq =>
    refine .of_useBuffer h fun hc h => ?_
    split at h
    case isTrue hempty => cases h; exact .fail rfl (by simp [elemsRemoved, hempty])
    case isFalse hempty =>
      rw [State.dequeue_eq_next h]
      exact .dequeued 1 0 (.inl rfl) hc (by simp [elemsRemoved, hc, hempty])
  | peek idx =>
    refine .of_useBuffer h fun hc h => ?_
    split at h
    · cases h; exact .fail rfl rfl
    · rw [State.access_eq_next h]; exact .answered _ rfl rfl nofun
  | isempty | isfull | occ => exact .of_useBuffer h fun hc h => by cases h; exact .answered _ rfl rfl nofun
  | enqn n data =>
    refine .of_useBuffer h fun hc h => ?_
    split at h
    · cases h
    case isFalse hdata =>
      obtain ⟨hlen, hsized⟩ := dataShaped_iff.1 (Bool.eq_true_of_not_eq_false hdata)
      rw [State.enqueue_eq_next h]
      refine .enqueued _ _ (.inr rfl) hc (if_pos hc) (fun e he => hsized e (List.mem_of_mem_take he)) ?_
      rw [elemsStored, if_pos hc, List.length_take_of_le (hlen ▸ Nat.min_le_left ..)]
  | deqn n =>
    refine .of_useBuffer h fun hc h => ?_
    rw [State.dequeue_eq_next h]
    exact .dequeued _ _ (.inr rfl) hc (if_pos hc)
  | reserved cmd => cases h; exact .fail rfl rfl

/-! ### INV and the storage form (10_state.md section 5, 20_memory.md R50) -/

/-- The registers that a valid INIT writes satisfy INV, because its conditions are INV's with the queue empty. -/
theorem Regs.Inv.of_initValid {p : Params} {a : BitVec p.addrW} {b c : BitVec p.ctrW} (h : initValid a b c = true) :
    Regs.Inv (p := p) { base := a, esize := b, cap := c, head := 0, tail := 0, cfg := true } := by
  obtain ⟨hbase, hesize, hcap, htest, hfits⟩ := (initValid_iff a b c).1 h
  have hpow := (capacityTestAcceptsPowersOfTwo p c).1 ((powerOfTwo_iff c).2 ⟨hcap, htest⟩)
  refine ⟨nofun, fun _ => ⟨hbase, hesize, hpow, hfits, ?_⟩⟩
  simp [Regs.occ]

theorem Effect.inv (h : Effect i s t) (hI : s.regs.Inv) : t.regs.Inv := by
  cases h with
  | answered => exact hI
  | configured base esize num hi hvalid => exact .of_initValid hvalid
  | enqueued es val ho hc hes hsized hcount => exact hI.enqueued hc (hcount ▸ occ_add_elemsStored_le hI hc i)
  | dequeued k val ho hc hk => exact hI.dequeued hc (hk ▸ elemsRemoved_le_occ i s)

/-- A command that answers a next state stores inside the storage address space. -/
theorem Effect.storedCells_inSpace (h : Effect i s t) (hI : s.regs.Inv) :
    ∀ c ∈ storedCells i s, c.1 < 2 ^ s.params.addrW := by
  rw [storedCells_eq_enqCells]
  cases h with
  | answered x hstored => rw [storedElems_eq_nil hstored]; exact List.forall_mem_nil _
  | configured base esize num hi => rw [hi]; exact List.forall_mem_nil _
  | enqueued es val ho hc hes hsized => rw [hes]; exact hI.enqCells_inSpace hc hsized
  | dequeued k val ho => rw [storedElems_eq_nil (elemsStored_eq_zero_of_opcode ho)]; exact List.forall_mem_nil _

theorem exec_keeps_good (hs : s.Good) (h : exec i s = .next t) : t.Good ∧ t.params = s.params := by
  obtain ⟨hI, hwf, hspace⟩ := hs
  have hI' := (Effect.of_exec h).inv hI
  have hcells := (Effect.of_exec h).storedCells_inSpace hI
  obtain ⟨r, x, b, rfl, -⟩ := exec_shape h
  exact ⟨⟨hI', Memory.wf_writeCells hwf _, Memory.inSpace_writeCells hspace hcells⟩, rfl⟩

theorem mem_of_mem_apart {cs ds : List Host.Cell} {c : Host.Cell} (h : c ∈ apart cs ds) : c ∈ cs := (mem_apart.1 h).1

theorem mem_of_mem_clashing {cs ds : List Host.Cell} {c : Host.Cell} (h : c ∈ clashing cs ds) : c ∈ cs :=
  (mem_clashing.1 h).1

/-- The stores a race makes for certain are among those of the two sides. -/
theorem mem_or_mem_of_mem_apart {cs ds : List Host.Cell} {c : Host.Cell} (h : c ∈ apart cs ds ++ apart ds cs) :
    c ∈ cs ∨ c ∈ ds :=
  (List.mem_append.1 h).imp mem_of_mem_apart mem_of_mem_apart

/-- The stores a race draws are among those of the two sides. -/
theorem mem_or_mem_of_mem_clashing {cs ds : List Host.Cell} {c : Host.Cell} (h : c ∈ clashing cs ds ++ clashing ds cs) :
    c ∈ cs ∨ c ∈ ds :=
  (List.mem_append.1 h).imp mem_of_mem_clashing mem_of_mem_clashing

theorem raceCommand_keeps_good {o : Foreign s.params} (hs : s.Good) (h : raceCommand i s o = .next t) :
    t.Good ∧ t.params = s.params := by
  obtain ⟨hI, hwf, hspace⟩ := hs
  obtain ⟨u, d, n, hu, rfl, -⟩ := raceCommand_eq_next h
  have hI' := (Effect.of_exec hu).inv hI
  have hown := (Effect.of_exec hu).storedCells_inSpace hI
  rw [storedCells_of_regs] at hown
  obtain ⟨r, x, b, rfl, -⟩ := exec_shape hu
  have hboth : ∀ c, c ∈ storedCells i s ∨ c ∈ foreignCells o.writes → c.1 < 2 ^ s.params.addrW := fun c hc =>
    hc.elim (hown c) (foreignCells_inSpace o.writes c)
  refine ⟨⟨hI', wf_drawCells (Memory.wf_writeCells hwf _) _ _, ?_⟩, rfl⟩
  exact inSpace_drawCells (Memory.inSpace_writeCells hspace fun c hc => hboth c (mem_or_mem_of_mem_apart hc)) _
    fun c hc => hboth c (mem_or_mem_of_mem_clashing hc)

/-- A command that `rst` cuts short, when it answers a next state: the reset state, with the bytes it stores drawn. -/
theorem abandonCommand_eq_next {o : Foreign s.params} (h : abandonCommand i s o = .next t) :
    ∃ (u : State) (d : List Byte) (n : Nat), exec i s = .next u ∧
      t = { s.assertReset with
        mem := drawCells (s.mem.writeCells (apart (foreignCells o.writes) (storedCells i s))) s.draws
          (storedCells i s ++ clashing (foreignCells o.writes) (storedCells i s))
        foreignData := d, draws := n } := by
  simp only [abandonCommand] at h
  split at h
  next u hu => cases h; exact ⟨u, _, _, hu, rfl⟩
  · cases h
  · cases h

theorem Regs.Inv.reset (p : Params) : (Regs.reset p).Inv := ⟨fun _ => ⟨rfl, rfl⟩, nofun⟩

theorem abandonCommand_keeps_good {o : Foreign s.params} (hs : s.Good) (h : abandonCommand i s o = .next t) :
    t.Good ∧ t.params = s.params := by
  obtain ⟨hI, hwf, hspace⟩ := hs
  obtain ⟨u, d, n, hu, rfl⟩ := abandonCommand_eq_next h
  have hown := (Effect.of_exec hu).storedCells_inSpace hI
  have halien := foreignCells_inSpace o.writes
  refine ⟨⟨.reset _, wf_drawCells (Memory.wf_writeCells hwf _) _ _, ?_⟩, rfl⟩
  refine inSpace_drawCells (Memory.inSpace_writeCells hspace fun c hc => halien c (mem_of_mem_apart hc)) _ fun c hc => ?_
  exact (List.mem_append.1 hc).elim (hown c) fun hc => halien c (mem_of_mem_clashing hc)

theorem State.Good.writeForeign (hs : s.Good) (cells : List (BitVec s.params.addrW × Byte)) :
    (s.withMem (s.mem.writeCells (foreignCells cells))).Good := by
  obtain ⟨hI, hwf, hspace⟩ := hs
  exact ⟨hI, Memory.wf_writeCells hwf _, Memory.inSpace_writeCells hspace (foreignCells_inSpace cells)⟩

theorem State.driveReset_keeps_good (hs : s.Good) (level : Bool) :
    (s.driveReset level).Good ∧ (s.driveReset level).params = s.params := by
  obtain ⟨hI, hmem⟩ := hs
  simp only [State.driveReset]
  split
  · exact ⟨⟨.reset _, hmem⟩, rfl⟩
  · split
    · exact ⟨⟨.reset _, hmem⟩, rfl⟩
    · exact ⟨⟨hI, hmem⟩, rfl⟩

/-- What taking an input has done, when it answers a next state. -/
inductive Taken (s : State) : Input s.params → State → Prop
  | ran {q : Request s.params} {t : State} (h : exec (decode q) s = .next t) : Taken s (.command q) t
  | raced {q : Request s.params} {o : Foreign s.params} {t : State} (h : raceCommand (decode q) s o = .next t) :
      Taken s (.racingCommand q o) t
  | abandoned {q : Request s.params} {o : Foreign s.params} {t : State} (h : abandonCommand (decode q) s o = .next t) :
      Taken s (.abandonedCommand q o) t
  | notTransferred (q : Request s.params) : Taken s (.command q) s
  | foreignOnly (x : Input s.params) (q : Request s.params) (o : Foreign s.params)
      (hx : x = .racingCommand q o ∨ x = .abandonedCommand q o) : Taken s x (s.foreignAlone o)
  | reset (level : Bool) : Taken s (.rst level) (s.driveReset level)
  | foreignWrite (cells : List (BitVec s.params.addrW × Byte)) :
      Taken s (.foreignWrite cells) (s.withMem (s.mem.writeCells (foreignCells cells)))
  | foreignRead (addrs : List (BitVec s.params.addrW)) :
      Taken s (.foreignRead addrs) { s with foreignData := addrs.map fun a => s.mem.read a.toNat }
  | storage (condition : Backing) : Taken s (.storage condition) (s.setBacking condition)

/-- Everything an input can do: a request that `rst` keeps from being transferred leaves other agents' accesses alone. -/
theorem Taken.of_takeInput {x : Input s.params} (h : takeInput s x = .next t) : Taken s x t := by
  cases x with
  | command q =>
    simp only [takeInput] at h
    split at h
    · exact .ran h
    · cases h; exact .notTransferred q
  | racingCommand q o =>
    simp only [takeInput] at h
    split at h
    · exact .raced h
    · cases h; exact .foreignOnly _ q o (.inl rfl)
  | abandonedCommand q o =>
    simp only [takeInput] at h
    split at h
    · exact .abandoned h
    · cases h; exact .foreignOnly _ q o (.inr rfl)
  | rst level => cases h; exact .reset level
  | foreignWrite cells => cases h; exact .foreignWrite cells
  | foreignRead addrs => cases h; exact .foreignRead addrs
  | storage condition => cases h; exact .storage condition

theorem Taken.keeps_good {x : Input s.params} (h : Taken s x t) (hs : s.Good) : t.Good ∧ t.params = s.params := by
  cases h with
  | ran h => exact exec_keeps_good hs h
  | raced h => exact raceCommand_keeps_good hs h
  | abandoned h => exact abandonCommand_keeps_good hs h
  | foreignOnly x q o => exact ⟨hs.writeForeign o.writes, rfl⟩
  | reset level => exact State.driveReset_keeps_good hs level
  | foreignWrite cells => exact ⟨hs.writeForeign cells, rfl⟩
  | notTransferred | foreignRead | storage => exact ⟨hs, rfl⟩

/-- A step that answers a next state has waited or taken the next input. -/
theorem step_eq_next (h : step s = .next t) :
    (s.inputs = [] ∧ t = s) ∨
      ∃ (x : Input s.params) (rest : List (Input s.params)), s.inputs = x :: rest ∧ Taken (s.withInputs rest) x t := by
  have hI := inv_of_step_eq_next h
  cases hi : s.inputs with
  | nil =>
    rw [step_idle hI hi] at h
    cases h
    exact .inl ⟨rfl, rfl⟩
  | cons x rest => exact .inr ⟨x, rest, rfl, .of_takeInput (step_input hI hi ▸ h)⟩

end Machine

end Sys2Proof

open Sys2Proof Sys2Proof.Machine

/-- Settles O12: every input keeps INV and the storage form. A command does because what it stores fits and what it removes is
there; a reset because its registers satisfy INV. -/
theorem stepKeepsGood : Obligations.StepKeepsGood := by
  intro s t hs h
  rcases step_eq_next h with ⟨-, rfl⟩ | ⟨x, rest, -, h⟩
  · exact ⟨hs, rfl⟩
  · exact h.keeps_good hs

/-- Settles O11: the reset registers satisfy INV, and the storage list is empty. -/
theorem goodAtReset : Obligations.GoodAtReset := fun p =>
  ⟨.reset p, List.Pairwise.nil, List.forall_mem_nil _⟩

/-- Settles O13: INV is what a step tests first. -/
theorem stateOutsideInvariantIsRefused : Obligations.StateOutsideInvariantIsRefused := fun _ hI => if_neg hI
end

section
/-! PROOFS. The buffer as a first-in first-out queue (41_single_element.md R106, 43_bulk.md R130, R135): what an enqueue and a
dequeue do to the stored elements, what makes a command complete, and the refinement of the abstract queue. -/

namespace Sys2Proof.Machine

variable {i : Instr} {s t : State}

/-! ### The stored elements (00_scope.md R17) -/

/-- Where the stored elements lie does not depend on HEAD. -/
theorem Regs.elemsFrom_head {p : Params} (r : Regs p) (h : BitVec p.ctrW) (m : Memory) (n k : Nat) :
    Regs.elemsFrom { r with head := h } m n k = r.elemsFrom m n k := by
  refine List.ext_getElem? fun j => ?_
  simp only [Regs.getElem?_elemsFrom]
  rfl

@[simp] theorem State.queue_length (s : State) : s.queue.length = s.regs.occ.toNat := Regs.elemsFrom_length ..

/-- A response changes no stored element. -/
theorem State.queue_respond (s : State) (ok : Bool) (val : BitVec s.params.ctrW) (r : List Elem) :
    (s.respond ok val r).queue = s.queue := rfl

theorem State.getElem?_queue (s : State) (n : Nat) :
    s.queue[n]? = if n < s.regs.occ.toNat then some (s.regs.elemAt s.mem n) else none := by
  rw [State.queue, Regs.getElem?_elemsFrom, Nat.zero_add]

/-- The `k` oldest elements and the rest. -/
theorem State.elemsFrom_append_elemsFrom {k : Nat} (hk : k ≤ s.regs.occ.toNat) :
    s.regs.elemsFrom s.mem 0 k ++ s.regs.elemsFrom s.mem k (s.regs.occ.toNat - k) = s.queue := by
  rw [State.queue, show s.regs.occ.toNat = k + (s.regs.occ.toNat - k) by omega, Regs.elemsFrom_add, Nat.zero_add,
    Nat.add_sub_cancel_left]

theorem State.elemsFrom_eq_take {k : Nat} (hk : k ≤ s.regs.occ.toNat) : s.regs.elemsFrom s.mem 0 k = s.queue.take k := by
  rw [← State.elemsFrom_append_elemsFrom hk, List.take_left' (Regs.elemsFrom_length ..)]

/-- An enqueue that fits puts its elements behind the stored ones. -/
theorem State.queue_enqueued (hI : s.regs.Inv) (hc : s.regs.cfg = true) {es : List Elem}
    (hes : ∀ e ∈ es, e.length = s.regs.esize.toNat) (hfit : s.regs.occ.toNat + es.length ≤ s.regs.cap.toNat) (val : Nat) :
    (s.enqueued es val).queue = s.queue ++ es := by
  have hocc : (s.enqueued es val).regs.occ.toNat = s.regs.occ.toNat + es.length :=
    s.regs.occ_add_head (hfit.trans_lt s.regs.cap.isLt)
  rw [State.queue, hocc, Regs.elemsFrom_head]
  exact hI.elemsFrom_enqueue hc s.mem hes hfit

/-- A dequeue takes the oldest elements away. -/
theorem State.queue_dequeued {k : Nat} (hk : k ≤ s.regs.occ.toNat) (val : Nat) :
    (s.dequeued k val).queue = s.queue.drop k := by
  have hocc : (s.dequeued k val).regs.occ.toNat = s.regs.occ.toNat - k := s.regs.occ_add_tail hk
  rw [State.queue, hocc, ← State.elemsFrom_append_elemsFrom hk, List.drop_left' (Regs.elemsFrom_length ..)]
  exact s.regs.elemsFrom_tail s.mem k 0 _

/-! ### Usable buffers (70_reset_and_hazards.md R172) -/

theorem State.Usable.inv (hs : s.Usable) : s.regs.Inv := hs.1

theorem State.Usable.storage_answers (hs : s.Usable) : s.storageGone = false ∧ s.backing ≠ .erring := by
  obtain ⟨-, -, hb, hstale⟩ := hs
  exact State.storage_answers hb hstale

/-- Every command but INIT leaves a usable buffer usable, with the same configuration. -/
theorem Effect.usable (h : Effect i s t) (hi : i.isInit = false) (hs : s.Usable) :
    t.Usable ∧ t.regs.esize.toNat = s.regs.esize.toNat := by
  have hI' := h.inv hs.inv
  obtain ⟨-, hc, hb, hstale⟩ := hs
  cases h with
  | answered | enqueued | dequeued => exact ⟨⟨hI', hc, hb, hstale⟩, rfl⟩
  | configured base esize num hinit => rw [hinit] at hi; cases hi

/-! ### Where a command's storage accesses go (20_memory.md R60) -/

/-- The storage accesses of a command on a configured buffer. -/
def accessesOf (i : Instr) (s : State) : List (Nat × Nat) :=
  match i with
  | .enq _ | .enqn _ _ => s.regs.enqAccesses (elemsStored i s)
  | .deq | .deqn _ => s.regs.deqAccesses (elemsRemoved i s)
  | .peek idx => if idx < s.regs.occ.toNat then [(s.regs.deqAddr idx, s.regs.esize.toNat)] else []
  | .init _ _ _ | .isempty | .isfull | .occ | .reserved _ => []

theorem accessesOf_fit (hI : s.regs.Inv) (hc : s.regs.cfg = true) (i : Instr) :
    ∀ x ∈ accessesOf i s, x.1 + x.2 ≤ 2 ^ s.params.addrW := by
  cases i with
  | enq | enqn => exact hI.enqAccesses_fit hc _
  | deq | deqn => exact hI.deqAccesses_fit hc _
  | peek idx =>
    simp only [accessesOf]
    split
    · exact List.forall_mem_singleton.2 (hI.addrOf_fits hc _)
    · exact List.forall_mem_nil _
  | init | isempty | isfull | occ | reserved => exact List.forall_mem_nil _

/-- With write data of the right shape, a command on a configured buffer whose storage was not released is its accesses, and
then a next state. -/
theorem exec_eq_access (hc : s.regs.cfg = true) (hg : s.storageGone = false) (hd : i.shaped s.regs.esize.toNat = true) :
    ∃ done, exec i s = s.access (accessesOf i s) done := by
  cases i with
  | init base esize num =>
    simp only [exec, execInit]
    split
    · exact ⟨_, rfl⟩
    · exact ⟨_, rfl⟩
  | enq data =>
    obtain ⟨hlen, -⟩ := dataShaped_iff.1 hd
    by_cases hfull : s.regs.full = true
    · have hnone : elemsStored (.enq data) s = 0 := by simp [elemsStored, hfull]
      rw [exec_enq_of_full hg hd hfull, accessesOf, hnone]
      exact ⟨_, rfl⟩
    · have hone : elemsStored (.enq data) s = data.length := by simp [elemsStored, hc, hfull, hlen]
      rw [exec_enq_of_not_full hc hg hd hfull, accessesOf, hone]
      exact ⟨_, rfl⟩
  | deq =>
    by_cases hempty : s.regs.empty = true
    · have hnone : elemsRemoved .deq s = 0 := by simp [elemsRemoved, hempty]
      rw [exec_deq_of_empty hg hempty, accessesOf, hnone]
      exact ⟨_, rfl⟩
    · have hone : elemsRemoved .deq s = 1 := by simp [elemsRemoved, hc, hempty]
      rw [exec_deq_of_not_empty hc hg hempty, accessesOf, hone]
      exact ⟨_, rfl⟩
  | peek idx =>
    by_cases hi : idx < s.regs.occ.toNat
    · have hne : s.regs.empty = false := Bool.eq_false_iff.2 fun h => by have := s.regs.empty_iff.1 h; omega
      refine ⟨s.respond true 0 [s.regs.elemAt s.mem idx], ?_⟩
      simp [exec, execPeek, State.useBuffer_ready hc hg, hne, accessesOf, hi]
    · rw [exec_peek_of_occ_le hg (Nat.not_lt.1 hi), accessesOf, if_neg hi]
      exact ⟨_, rfl⟩
  | isempty => exact ⟨_, State.useBuffer_ready hc hg _⟩
  | isfull => exact ⟨_, State.useBuffer_ready hc hg _⟩
  | occ => exact ⟨_, State.useBuffer_ready hc hg _⟩
  | enqn n data =>
    obtain ⟨hlen, -⟩ := dataShaped_iff.1 hd
    have hk : elemsStored (.enqn n data) s = (data.take (min n s.regs.space.toNat)).length := by
      rw [elemsStored, if_pos hc, List.length_take_of_le (hlen ▸ Nat.min_le_left ..)]
    rw [exec_enqn_of_dataOk hc hg hd, accessesOf, hk]
    exact ⟨_, rfl⟩
  | deqn n =>
    have hk : elemsRemoved (.deqn n) s = min n s.regs.occ.toNat := if_pos hc
    rw [exec_deqn_of_configured hc hg, accessesOf, hk]
    exact ⟨_, rfl⟩
  | reserved cmd => exact ⟨_, exec_reserved cmd s⟩

/-- Such a command completes where its accesses do. -/
theorem exec_completes (hI : s.regs.Inv) (hc : s.regs.cfg = true) (hg : s.storageGone = false)
    (hd : i.shaped s.regs.esize.toNat = true) (hb : s.backing = .erring → accessesOf i s = []) :
    ∃ t, exec i s = .next t := by
  obtain ⟨done, hexec⟩ := exec_eq_access hc hg hd
  refine ⟨done, hexec.trans ?_⟩
  by_cases herr : s.backing = .erring
  · rw [hb herr, State.access_nil]
  · exact State.access_next herr (accessesOf_fit hI hc i)

theorem State.Usable.exec_completes (hs : s.Usable) (hd : i.shaped s.regs.esize.toNat = true) :
    ∃ t, exec i s = .next t := by
  obtain ⟨hgone, herr⟩ := hs.storage_answers
  obtain ⟨hI, hc, -⟩ := hs
  exact Machine.exec_completes hI hc hgone hd fun h => absurd h herr

/-! ### What a completed command did to the queue -/

/-- The elements removed followed by the elements left are those there before followed by those stored. -/
theorem Effect.queue_order (h : Effect i s t) (hi : i.isInit = false) (hI : s.regs.Inv) :
    (if i.removes then ((responseOf (.next t)).map (·.2.2)).getD [] else []) ++ t.queue = s.queue ++ storedElems i s := by
  cases h with
  | answered x hstored hremoved hr =>
    rw [storedElems_eq_nil hstored, List.append_nil]
    split
    case isTrue hrem => simp only [responseOf, Option.map_some, Option.getD_some, hr hrem]; rfl
    case isFalse => rfl
  | configured base esize num hinit => rw [hinit] at hi; cases hi
  | enqueued es val ho hc hes hsized hcount =>
    have hnot : ¬ i.removes = true := by
      rw [Instr.removes_iff_opcode]
      rcases ho with ho | ho <;> simp [ho]
    rw [if_neg hnot, List.nil_append, hes, State.queue_enqueued hI hc hsized (hcount ▸ occ_add_elemsStored_le hI hc i)]
  | dequeued k val ho hc hk =>
    have hle : k ≤ s.regs.occ.toNat := hk ▸ elemsRemoved_le_occ i s
    rw [if_pos (i.removes_iff_opcode.2 ho), storedElems_eq_nil (elemsStored_eq_zero_of_opcode ho), List.append_nil,
      State.queue_dequeued hle]
    simp only [responseOf, Option.map_some, Option.getD_some]
    rw [State.elemsFrom_eq_take hle, List.take_append_drop]

/-! ### The abstract queue (41_single_element.md, 42_queries.md, 43_bulk.md) -/

theorem State.queue_eq_nil_iff (s : State) : s.queue = [] ↔ s.regs.head = s.regs.tail := by
  rw [← List.length_eq_zero_iff, State.queue_length, ← s.regs.empty_iff, s.regs.empty_iff_head_eq_tail]

theorem State.queue_full_iff (s : State) : s.queue.length = s.regs.cap.toNat ↔ s.regs.full = true := by
  rw [State.queue_length, s.regs.full_iff]

/-- A count of at most `CAP` elements comes out of VAL as it is. -/
theorem toNat_ofNat_of_le_cap {p : Params} {r : Regs p} {k : Nat} (hk : k ≤ r.cap.toNat) :
    (BitVec.ofNat p.ctrW k).toNat = k := by
  rw [BitVec.toNat_ofNat, Nat.mod_eq_of_lt (hk.trans_lt r.cap.isLt)]

/-- A command that answers in state `s` itself agrees with an abstract one that leaves the queue. -/
theorem refines_of_respond {ok : Bool} {val : BitVec s.params.ctrW} {r : List Elem} {y : List Elem × (Bool × Nat × List Elem)}
    (h : exec i s = .next (s.respond ok val r)) (hy : y = (s.queue, (ok, val.toNat, r))) :
    ∃ t, exec i s = .next t ∧ t.queue = y.1 ∧ responseOf (.next t) = some y.2 :=
  ⟨_, h, by rw [hy]; exact s.queue_respond ok val r, by rw [hy]; rfl⟩

/-- On a usable buffer every well-shaped command but INIT does what the abstract queue does. -/
theorem exec_refines_queueStep (hs : s.Usable) (hi : i.isInit = false) (hd : i.shaped s.regs.esize.toNat = true) :
    ∃ t, exec i s = .next t ∧ t.queue = (queueStep s.regs.cap.toNat s.queue i).1 ∧
      responseOf (.next t) = some (queueStep s.regs.cap.toNat s.queue i).2 := by
  obtain ⟨hgone, herr⟩ := hs.storage_answers
  obtain ⟨hI, hc, -⟩ := hs
  cases i with
  | init => cases hi
  | enq data =>
    obtain ⟨hlen, hsized⟩ := dataShaped_iff.1 hd
    by_cases hfull : s.regs.full = true
    · refine refines_of_respond (exec_enq_of_full hgone hd hfull) ?_
      simp [queueStep, s.queue_full_iff.2 hfull]
    · have hroom : s.regs.occ.toNat + data.length ≤ s.regs.cap.toNat := hlen ▸ hI.occ_lt_of_not_full hc hfull
      rw [exec_enq_of_not_full hc hgone hd hfull, queueStep, if_neg (mt s.queue_full_iff.1 hfull)]
      exact ⟨_, State.enqueue_next hI hc herr data 0, State.queue_enqueued hI hc hsized hroom 0, rfl⟩
  | deq =>
    cases hq : s.queue with
    | nil =>
      have hempty := s.regs.empty_iff_head_eq_tail.2 (s.queue_eq_nil_iff.1 hq)
      exact refines_of_respond (exec_deq_of_empty hgone hempty) (by rw [hq]; rfl)
    | cons e rest =>
      have hne : ¬ s.regs.empty = true := fun h => by
        have := s.queue_eq_nil_iff.2 (s.regs.empty_iff_head_eq_tail.1 h)
        rw [hq] at this; cases this
      have hone : 1 ≤ s.regs.occ.toNat := by rw [← s.queue_length, hq]; exact Nat.le_add_left ..
      rw [exec_deq_of_not_empty hc hgone hne]
      refine ⟨_, State.dequeue_next hI hc herr 1 0, (State.queue_dequeued hone 0).trans (by rw [hq]; rfl), ?_⟩
      simp only [responseOf, Option.map_some, State.elemsFrom_eq_take hone, hq]
      rfl
  | peek idx =>
    have hat := s.getElem?_queue idx
    by_cases hidx : idx < s.regs.occ.toNat
    · rw [if_pos hidx] at hat
      exact refines_of_respond (exec_peek_of_lt_occ hI hc hgone herr hidx) (by rw [queueStep, hat]; rfl)
    · rw [if_neg hidx] at hat
      exact refines_of_respond (exec_peek_of_occ_le hgone (Nat.not_lt.1 hidx)) (by rw [queueStep, hat]; rfl)
  | isempty =>
    refine refines_of_respond (exec_isempty_of_configured hc hgone) ?_
    simp only [queueStep, toNat_ite_one_zero, s.queue_eq_nil_iff]
  | isfull =>
    refine refines_of_respond (exec_isfull_of_configured hc hgone) ?_
    simp only [queueStep, toNat_ite_one_zero, s.queue_full_iff, s.regs.full_iff_sub_eq_cap]
  | occ => exact refines_of_respond (exec_occ_of_configured hc hgone) (by rw [queueStep, s.queue_length]; rfl)
  | enqn n data =>
    obtain ⟨hlen, hsized⟩ := dataShaped_iff.1 hd
    have hfit := hI.occ_add_min_space hc n
    rw [exec_enqn_of_dataOk hc hgone hd, queueStep, s.queue_length, ← hI.space_toNat hc]
    generalize hk : min n s.regs.space.toNat = k at hfit
    have hcount : (data.take k).length = k := List.length_take_of_le (by omega)
    refine ⟨_, State.enqueue_next hI hc herr (data.take k) k, State.queue_enqueued hI hc
      (fun e he => hsized e (List.mem_of_mem_take he)) (by rwa [hcount]) k, ?_⟩
    simp only [responseOf, Option.map_some, toNat_ofNat_of_le_cap (r := s.regs) (k := k) (by omega)]
  | deqn n =>
    have hk : min n s.regs.occ.toNat ≤ s.regs.occ.toNat := Nat.min_le_right ..
    have htake : s.queue.take (min n s.regs.occ.toNat) = s.queue.take n := by
      rw [← s.queue_length, ← List.take_eq_take_min]
    have hdrop : s.queue.drop (min n s.regs.occ.toNat) = s.queue.drop n := by
      rw [← s.queue_length, ← List.drop_eq_drop_min]
    rw [exec_deqn_of_configured hc hgone, queueStep, s.queue_length]
    refine ⟨_, State.dequeue_next hI hc herr _ _, (State.queue_dequeued hk _).trans hdrop, ?_⟩
    simp only [responseOf, Option.map_some, State.elemsFrom_eq_take hk, htake,
      toNat_ofNat_of_le_cap (r := s.regs) (hk.trans (hI.occ_le hc))]
  | reserved cmd => exact refines_of_respond (exec_reserved cmd s) rfl

/-! ### Runs of commands -/

theorem runCommands_cons {is : List Instr} (h : exec i s = .next t) : runCommands (i :: is) s = runCommands is t := by
  rw [runCommands, h]

theorem dequeuedBy_cons {is : List Instr} (h : exec i s = .next t) :
    dequeuedBy (i :: is) s =
      (if i.removes then ((responseOf (.next t)).map (·.2.2)).getD [] else []) ++ dequeuedBy is t := by
  rw [dequeuedBy, h]

theorem enqueuedBy_cons {is : List Instr} (h : exec i s = .next t) :
    enqueuedBy (i :: is) s = storedElems i s ++ enqueuedBy is t := by
  rw [enqueuedBy, h]

end Sys2Proof.Machine

open Sys2Proof Sys2Proof.Machine

/-- Settles O46: every command but INIT does what the abstract queue does, and keeps the buffer usable. -/
theorem bufferRefinesFifoQueue : Obligations.BufferRefinesFifoQueue := by
  intro s i hs hi hd
  obtain ⟨t, hexec, hqueue, hresp⟩ := exec_refines_queueStep hs hi hd
  exact ⟨s.queue_length, t, hexec, ((Effect.of_exec hexec).usable hi hs).1, hqueue, hresp⟩

/-- Settles O47, by induction on the run: each command completes, keeps the buffer usable and ESIZE as it was, and moves
elements in order. -/
theorem runKeepsFifoOrder : Obligations.RunKeepsFifoOrder := by
  intro is
  induction is with
  | nil => exact fun s hs _ => ⟨s, rfl, hs, (List.append_nil _).symm⟩
  | cons i is ih =>
    intro s hs his
    obtain ⟨⟨hi, hd⟩, his⟩ := List.forall_mem_cons.1 his
    obtain ⟨u, hexec⟩ := hs.exec_completes hd
    obtain ⟨hu, hesize⟩ := (Effect.of_exec hexec).usable hi hs
    have horder := (Effect.of_exec hexec).queue_order hi hs.inv
    obtain ⟨t, hrun, ht, hqueue⟩ := ih u hu (by rwa [hesize])
    refine ⟨t, (runCommands_cons hexec).trans hrun, ht, ?_⟩
    rw [dequeuedBy_cons hexec, enqueuedBy_cons hexec, List.append_assoc, hqueue, ← List.append_assoc, horder,
      List.append_assoc]
end

section
/-! PROOFS. How a command ends (60_exceptions.md, 20_memory.md sections 4 and 6, 30_encoding.md R77): when it is refused, when it
faults and when it answers a next state, what it leaves unchanged, and the statements about these. -/

namespace Sys2Proof.Machine

variable {i : Instr} {s t : State}

/-! ### Refusals (30_encoding.md R77, 00_scope.md R19) -/

theorem State.storageGone_iff (s : State) : s.storageGone = true ↔ s.backing = .released ∨ s.stale = true := by
  rw [State.storageGone, Bool.or_eq_true, decide_eq_true_iff]

/-- After a release every use of a configured buffer is refused. -/
theorem exec_of_gone (hc : s.regs.cfg = true) (hg : s.storageGone = true) (hu : i.usesBuffer = true) :
    exec i s = .refused .storageReleased := by
  cases i with
  | init | reserved => cases hu
  | enq | deq | peek | isempty | isfull | occ | enqn | deqn => exact State.useBuffer_gone hc hg _

/-- Write data of the wrong shape is refused before the buffer is looked at. -/
theorem exec_of_malformed (hc : s.regs.cfg = true) (hg : s.storageGone = false)
    (hd : i.shaped s.regs.esize.toNat = false) : exec i s = .refused .malformedRequest := by
  cases i with
  | enq | enqn => exact (State.useBuffer_ready hc hg _).trans (if_pos hd)
  | init | deq | peek | isempty | isfull | occ | deqn | reserved => cases hd

/-! ### Completion (60_exceptions.md R150) -/

/-- INIT and the reserved encodings answer in every state. -/
theorem exec_of_not_usesBuffer (hu : i.usesBuffer = false) (s : State) : ∃ t, exec i s = .next t := by
  cases i with
  | init base esize num =>
    simp only [exec, execInit]
    split
    · exact ⟨_, rfl⟩
    · exact ⟨_, rfl⟩
  | reserved cmd => exact ⟨_, exec_reserved cmd s⟩
  | enq | deq | peek | isempty | isfull | occ | enqn | deqn => cases hu

/-- While CFG = 0 every command answers: INIT, and FAIL for the others. -/
theorem exec_of_unconfigured_completes (hc : s.regs.cfg = false) (i : Instr) : ∃ t, exec i s = .next t := by
  cases hi : i.isInit with
  | false => exact ⟨_, exec_of_unconfigured hc hi⟩
  | true =>
    cases i with
    | init => exact exec_of_not_usesBuffer rfl s
    | enq | deq | peek | isempty | isfull | occ | enqn | deqn | reserved => cases hi

/-! ### Faults (20_memory.md R69, 00_scope.md R13) -/

theorem Regs.enqAccesses_eq_nil_iff {p : Params} {r : Regs p} {k : Nat} : r.enqAccesses k = [] ↔ k = 0 := by
  simp [Regs.enqAccesses]

theorem Regs.deqAccesses_eq_nil_iff {p : Params} {r : Regs p} {k : Nat} : r.deqAccesses k = [] ↔ k = 0 := by
  simp [Regs.deqAccesses]

/-- Which commands access storage on a configured buffer (20_memory.md R60). -/
theorem accessesOf_ne_nil_iff (hI : s.regs.Inv) (hc : s.regs.cfg = true) :
    accessesOf i s ≠ [] ↔
      (∃ d, i = .enq d ∧ s.regs.occ ≠ s.regs.cap) ∨ (i = .deq ∧ s.regs.occ ≠ 0) ∨
      (∃ n, i = .peek n ∧ n < s.regs.occ.toNat) ∨
      (∃ n d, i = .enqn n d ∧ 1 ≤ min n (s.regs.cap.toNat - s.regs.occ.toNat)) ∨
      (∃ n, i = .deqn n ∧ 1 ≤ min n s.regs.occ.toNat) := by
  rw [← hI.space_toNat hc]
  cases i with
  | enq data => simp [accessesOf, Regs.enqAccesses_eq_nil_iff, elemsStored, hc, Regs.full]
  | deq => simp [accessesOf, Regs.deqAccesses_eq_nil_iff, elemsRemoved, hc, Regs.empty]
  | peek idx => simp [accessesOf]
  | enqn n data => simp [accessesOf, Regs.enqAccesses_eq_nil_iff, elemsStored, hc, Nat.one_le_iff_ne_zero]
  | deqn n => simp [accessesOf, Regs.deqAccesses_eq_nil_iff, elemsRemoved, hc, Nat.one_le_iff_ne_zero]
  | init | isempty | isfull | occ | reserved => simp [accessesOf]

/-- A command that accesses storage faults while the storage errs. -/
theorem exec_of_erring (hc : s.regs.cfg = true) (hg : s.storageGone = false) (hd : i.shaped s.regs.esize.toNat = true)
    (hb : s.backing = .erring) (hx : accessesOf i s ≠ []) : exec i s = .fault .storageError := by
  obtain ⟨done, hexec⟩ := exec_eq_access hc hg hd
  obtain ⟨x, xs, hxs⟩ := List.exists_cons_of_ne_nil hx
  rw [hexec, hxs, State.access_errs hb]

/-- Accesses inside the storage address space never fault for leaving it. -/
theorem State.access_ne_outside {done : State} {xs : List (Nat × Nat)} (hx : ∀ x ∈ xs, x.1 + x.2 ≤ 2 ^ s.params.addrW) :
    s.access xs done ≠ .fault .outsideAddressSpace := by
  by_cases herr : s.backing = .erring
  · cases xs with
    | nil => exact nofun
    | cons x xs => rw [State.access_errs herr]; exact nofun
  · rw [State.access_next herr hx]; exact nofun

/-- No command makes an access beyond the storage address space. -/
theorem exec_ne_outside (hI : s.regs.Inv) (i : Instr) : exec i s ≠ .fault .outsideAddressSpace := by
  cases hc : s.regs.cfg with
  | false => obtain ⟨t, h⟩ := exec_of_unconfigured_completes hc i; rw [h]; exact nofun
  | true =>
    cases hu : i.usesBuffer with
    | false => obtain ⟨t, h⟩ := exec_of_not_usesBuffer hu s; rw [h]; exact nofun
    | true =>
      cases hg : s.storageGone with
      | true => rw [exec_of_gone hc hg hu]; exact nofun
      | false =>
        cases hd : i.shaped s.regs.esize.toNat with
        | false => rw [exec_of_malformed hc hg hd]; exact nofun
        | true =>
          obtain ⟨done, h⟩ := exec_eq_access hc hg hd
          rw [h]
          exact State.access_ne_outside (accessesOf_fit hI hc i)

/-- A race faults only as its command does. -/
theorem raceCommand_ne_outside (hI : s.regs.Inv) (i : Instr) (o : Foreign s.params) :
    raceCommand i s o ≠ .fault .outsideAddressSpace := by
  have hne := exec_ne_outside (s := s.withMem (drawCells s.mem s.draws (foreignCells o.writes))) hI i
  simp only [raceCommand]
  split
  · exact nofun
  next hf => rintro ⟨⟩; exact hne hf
  · exact nofun

/-- An abandoned command faults only as it would have done. -/
theorem abandonCommand_ne_outside (hI : s.regs.Inv) (i : Instr) (o : Foreign s.params) :
    abandonCommand i s o ≠ .fault .outsideAddressSpace := by
  have hne := exec_ne_outside hI i
  simp only [abandonCommand]
  split
  · exact nofun
  next hf => rintro ⟨⟩; exact hne hf
  · exact nofun

theorem takeInput_ne_outside (hI : s.regs.Inv) (x : Input s.params) : takeInput s x ≠ .fault .outsideAddressSpace := by
  cases x with
  | command req =>
    simp only [takeInput]
    split
    · exact exec_ne_outside hI _
    · exact nofun
  | racingCommand req other =>
    simp only [takeInput]
    split
    · exact raceCommand_ne_outside hI _ other
    · exact nofun
  | abandonedCommand req other =>
    simp only [takeInput]
    split
    · exact abandonCommand_ne_outside hI _ other
    · exact nofun
  | rst | foreignWrite | foreignRead | storage => exact nofun

/-! ### What stays as it was (20_memory.md R60, 41_single_element.md R112) -/

theorem State.enqueued_nil (s : State) (val : Nat) : s.enqueued [] val = s.respond true (BitVec.ofNat _ val) [] := by
  rw [State.enqueued, Regs.enqCells, Memory.writeCells_nil, List.length_nil, BitVec.add_zero]

theorem State.dequeued_zero (s : State) (val : Nat) : s.dequeued 0 val = s.respond true (BitVec.ofNat _ val) [] := by
  rw [State.dequeued, BitVec.add_zero, Regs.elemsFrom]

/-- A command other than INIT that moves no element changes the response alone. -/
theorem Effect.only_responds (h : Effect i s t) (hi : i.isInit = false) (hstored : elemsStored i s = 0)
    (hremoved : elemsRemoved i s = 0) : ∃ x, t = { s with rsp := some x } := by
  cases h with
  | answered x => exact ⟨x, rfl⟩
  | configured base esize num hinit => rw [hinit] at hi; cases hi
  | enqueued es val ho hc hes => exact ⟨_, by rw [← hes, storedElems_eq_nil hstored, s.enqueued_nil]⟩
  | dequeued k val ho hc hk => exact ⟨_, by rw [← hk, hremoved, s.dequeued_zero]⟩

/-- A command that responds `OK = 0` changes the response alone. -/
theorem Effect.only_responds_of_fails (h : Effect i s t) (hf : Fails (.next t)) : ∃ x, t = { s with rsp := some x } := by
  cases h with
  | answered x => exact ⟨x, rfl⟩
  | configured | enqueued | dequeued => exact absurd hf (not_fails_next rfl rfl)

theorem moves_nothing_of_readOnly (h : i.readOnly = true) (s : State) :
    i.isInit = false ∧ elemsStored i s = 0 ∧ elemsRemoved i s = 0 := by
  cases i with
  | peek | isempty | isfull | occ | reserved => exact ⟨rfl, rfl, rfl⟩
  | init | enq | deq | enqn | deqn => cases h

end Sys2Proof.Machine

open Sys2Proof Sys2Proof.Machine

/-- Settles O5: on a configured buffer the shape of the write data is tested first; while CFG = 0 no command but INIT gets to a
test of its own, and a reserved encoding has none. -/
theorem malformedRequestIsRefused : Obligations.MalformedRequestIsRefused := by
  intro s q
  refine ⟨fun hc hb hs hcmd hd => ?_, fun hc hb hs hcmd hd => ?_, ?_⟩
  · rw [decode_of_cmd_eq .enq hcmd]
    exact exec_of_malformed hc (State.storageGone_eq_false hb hs) (Bool.eq_false_iff.2 (mt dataShaped_iff.1 hd))
  · rw [decode_of_cmd_eq .enqn hcmd]
    exact exec_of_malformed hc (State.storageGone_eq_false hb hs) (Bool.eq_false_iff.2 (mt dataShaped_iff.1 hd))
  · rintro (⟨hc, hcmd⟩ | hcmd)
    · refine exec_of_unconfigured hc ((isInit_decode_eq_false_iff q).2 fun hinit => ?_)
      rw [hinit] at hcmd
      exact absurd hcmd (by decide)
    · rw [decode_of_decodeCmd_eq_none ((decodeCmd_eq_none_iff_toNat q.cmd).2 (by omega)), exec_reserved]

/-- Settles O19: all that a command may change are the registers, the bytes it stores, the response and, for INIT, the record of
a release; and only ENQ and ENQN store bytes. -/
theorem commandFrame : Obligations.CommandFrame := by
  intro i s t h
  obtain ⟨r, x, b, rfl, hb⟩ := exec_shape h
  refine ⟨⟨r, _, x, b, rfl, hb.imp_right fun ⟨hb, base, esize, num, hi⟩ => ⟨hb, by rw [hi]; rfl⟩⟩,
    fun a ha => Memory.read_writeCells_of_not_touched s.mem ha, fun henq henqn => ?_⟩
  cases i with
  | enq data => exact absurd rfl (henq data)
  | enqn n data => exact absurd rfl (henqn n data)
  | init | deq | peek | isempty | isfull | occ | deqn | reserved => exact Memory.writeCells_nil s.mem

/-- Settles O20: every access of a command goes to a slot, and INV puts the slots inside the space. -/
theorem noAccessOutsideTheSpace : Obligations.NoAccessOutsideTheSpace := by
  intro s hI
  cases hi : s.inputs with
  | nil => rw [step_idle hI hi]; exact nofun
  | cons x rest => rw [step_input hI hi]; exact takeInput_ne_outside (s := s.withInputs rest) hI x

/-- Settles O21: the guard refuses every use of the buffer after a release; without one a command is its accesses followed by a
next state, and the storage error stops just those commands that make an access. -/
theorem storageConditionStopsAccesses : Obligations.StorageConditionStopsAccesses := by
  intro s i hI hd
  refine ⟨fun hc hgone => exec_of_gone hc (s.storageGone_iff.2 hgone), fun hc hb hs hacc => ?_, fun h => ?_⟩
  · exact exec_of_erring hc (State.storageGone_eq_false (by simp [hb]) hs) hd hb ((accessesOf_ne_nil_iff hI hc).2 hacc)
  · cases hc : s.regs.cfg with
    | false => exact exec_of_unconfigured_completes hc i
    | true =>
      rcases h with h | hu | ⟨hb, hs, hacc⟩
      · rw [hc] at h; cases h
      · exact exec_of_not_usesBuffer hu s
      · refine exec_completes hI hc (State.storageGone_eq_false hb hs) hd fun herr => ?_
        exact not_not.1 (mt (accessesOf_ne_nil_iff hI hc).1 (hacc herr))

/-- Settles O44: a usable buffer lets every well-shaped command complete, and a block that is not configured every command; the
record of a release stays clear. -/
theorem everyCommandCompletes : Obligations.EveryCommandCompletes := by
  intro s i hI hb hs hd
  have hnext : ∃ t, exec i s = .next t := by
    cases hc : s.regs.cfg with
    | false => exact exec_of_unconfigured_completes hc i
    | true => exact State.Usable.exec_completes ⟨hI, hc, hb, hs⟩ (hd.resolve_right (by simp [hc]))
  obtain ⟨t, h⟩ := hnext
  obtain ⟨r, x, b, rfl, hstale⟩ := exec_shape h
  have hbs : b = s.stale := hstale.elim id fun ⟨hb, _⟩ => hb.trans hs.symm
  exact ⟨r, _, x, by rw [h, hbs]⟩

/-- Settles O33: a read-only command moves no element, a failed one answers FAIL, and moving none leaves both counters and
storage alone. -/
theorem nothingMovedNothingChanged : Obligations.NothingMovedNothingChanged := by
  rintro i s t h (hro | hfails | ⟨hi, hstored, hremoved⟩)
  · obtain ⟨hi, hstored, hremoved⟩ := moves_nothing_of_readOnly hro s
    exact (Effect.of_exec h).only_responds hi hstored hremoved
  · exact (Effect.of_exec h).only_responds_of_fails hfails
  · exact (Effect.of_exec h).only_responds hi hstored hremoved

/-- Settles O27: an INIT that succeeded had its conditions true, which are INV's, and left both counters at 0. -/
theorem initEmptiesTheQueue : Obligations.InitEmptiesTheQueue := by
  intro s t base esize num h hok
  simp only [exec, execInit] at h
  split at h
  case isTrue hvalid =>
    cases h
    exact ⟨(State.queue_eq_nil_iff _).2 rfl, .of_initValid hvalid, rfl, rfl, rfl⟩
  case isFalse => cases h; cases hok
end

section
/-! PROOFS. Runs of commands (41_single_element.md R110, R111, 43_bulk.md R133, R136, 10_state.md R41): how a run is put together,
runs of ENQs and of DEQs, the counters over a run, and the statements about them. -/

namespace Sys2Proof.Machine

variable {i : Instr} {s t : State}

/-! ### Putting a run together -/

/-- Replace the response alone. -/
abbrev State.withRsp (s : State) (y : Option (Response s.params)) : State := { s with rsp := y }

theorem okCount_cons {is : List Instr} (h : exec i s = .next t) :
    okCount (i :: is) s = (if (responseOf (.next t)).any (·.1) then 1 else 0) + okCount is t := by
  rw [okCount, h]

theorem returned_cons {is : List Instr} (h : exec i s = .next t) :
    returned (i :: is) s = ((responseOf (.next t)).map (·.2.2)).getD [] ++ returned is t := by
  rw [returned, h]

theorem runSum_cons {f : Instr → State → Nat} {is : List Instr} (h : exec i s = .next t) :
    runSum f (i :: is) s = f i s + runSum f is t := by
  rw [runSum, h]

theorem noneMutates_cons {is : List Instr} (h : exec i s = .next t) :
    noneMutates (i :: is) s = (!mutates i s && noneMutates is t) := by
  rw [noneMutates, h]

/-- A run that completes begins with a command that does. -/
theorem exists_of_runCommands_cons {is : List Instr} (h : runCommands (i :: is) s = .next t) :
    ∃ u, exec i s = .next u ∧ runCommands is u = .next t := by
  rw [runCommands] at h
  split at h
  next u hu => exact ⟨u, hu, h⟩
  · cases h
  · cases h

/-- One run after another. -/
theorem runCommands_append {is js : List Instr} (h : runCommands is s = .next t) :
    runCommands (is ++ js) s = runCommands js t := by
  induction is generalizing s with
  | nil => cases h; rfl
  | cons i is ih =>
    obtain ⟨u, hu, hrun⟩ := exists_of_runCommands_cons h
    rw [List.cons_append, runCommands_cons hu, ih hrun]

theorem okCount_append {is js : List Instr} (h : runCommands is s = .next t) :
    okCount (is ++ js) s = okCount is s + okCount js t := by
  induction is generalizing s with
  | nil => cases h; exact (Nat.zero_add _).symm
  | cons i is ih =>
    obtain ⟨u, hu, hrun⟩ := exists_of_runCommands_cons h
    rw [List.cons_append, okCount_cons hu, okCount_cons hu, ih hrun, Nat.add_assoc]

/-- A run of commands each of which is FAIL, whatever the response before it, changes the response alone. -/
theorem runCommands_of_all_fail {is : List Instr}
    (h : ∀ i ∈ is, ∀ y, exec i (s.withRsp y) = .next (s.withRsp y).fail) :
    ∃ y, runCommands is s = .next (s.withRsp y) ∧ okCount is s = 0 := by
  induction is generalizing s with
  | nil => exact ⟨s.rsp, rfl, rfl⟩
  | cons i is ih =>
    obtain ⟨hi, his⟩ := List.forall_mem_cons.1 h
    obtain ⟨y, hrun, hok⟩ := ih (s := s.fail) his
    refine ⟨y, (runCommands_cons (hi s.rsp)).trans hrun, ?_⟩
    rw [okCount_cons (hi s.rsp), hok]
    rfl

/-! ### Runs of DEQs (43_bulk.md R136) -/

theorem State.Usable.exec_deq (hs : s.Usable) (hpos : 1 ≤ s.regs.occ.toNat) : exec .deq s = .next (s.dequeued 1 0) := by
  obtain ⟨hgone, herr⟩ := hs.storage_answers
  obtain ⟨hI, hc, -⟩ := hs
  rw [exec_deq_of_not_empty hc hgone fun he => by have := s.regs.empty_iff.1 he; omega]
  exact State.dequeue_next hI hc herr 1 0

theorem State.Usable.exec_deqn (hs : s.Usable) (n : Nat) :
    exec (.deqn n) s = .next (s.dequeued (min n s.regs.occ.toNat) (min n s.regs.occ.toNat)) := by
  obtain ⟨hgone, herr⟩ := hs.storage_answers
  obtain ⟨hI, hc, -⟩ := hs
  rw [exec_deqn_of_configured hc hgone]
  exact State.dequeue_next hI hc herr _ _

/-- DEQs of an empty buffer all fail. -/
theorem runCommands_deqs_of_empty {k : Nat} (hg : s.storageGone = false) (he : 0 < k → s.regs.empty = true) :
    ∃ y, runCommands (List.replicate k .deq) s = .next (s.withRsp y) ∧ okCount (List.replicate k .deq) s = 0 := by
  refine runCommands_of_all_fail fun i hi y => ?_
  obtain ⟨hk, rfl⟩ := List.mem_replicate.1 hi
  exact exec_deq_of_empty hg (he (Nat.pos_of_ne_zero hk))

theorem add_ofNat_one_add_ofNat {w : Nat} (c : BitVec w) (k : Nat) :
    c + BitVec.ofNat w 1 + BitVec.ofNat w k = c + BitVec.ofNat w (k + 1) := by
  rw [BitVec.add_assoc, Nat.add_comm k 1, BitVec.ofNat_add]

/-- As many DEQs as there are elements to remove all succeed, and return them in order. -/
theorem runCommands_deqs {k : Nat} (hs : s.Usable) (hk : k ≤ s.regs.occ.toNat) :
    ∃ y, runCommands (List.replicate k .deq) s =
        .next ((s.dequeued k 0).withRsp y) ∧
      okCount (List.replicate k .deq) s = k ∧ returned (List.replicate k .deq) s = s.regs.elemsFrom s.mem 0 k := by
  induction k generalizing s with
  | zero => exact ⟨s.rsp, by simp only [State.withRsp, BitVec.add_zero]; rfl, rfl, rfl⟩
  | succ k ih =>
    have hexec := hs.exec_deq (by omega)
    have hu := ((Effect.of_exec hexec).usable rfl hs).1
    have hocc : (s.dequeued 1 0).regs.occ.toNat = s.regs.occ.toNat - 1 := s.regs.occ_add_tail (by omega)
    obtain ⟨y, hrun, hok, hret⟩ := ih hu (by rw [hocc]; omega)
    refine ⟨y, ?_, ?_, ?_⟩
    · rw [List.replicate_succ, runCommands_cons hexec, hrun]
      simp only [State.withRsp, State.dequeued, add_ofNat_one_add_ofNat]
    · rw [List.replicate_succ, okCount_cons hexec, hok, Nat.add_comm]
      rfl
    · rw [List.replicate_succ, returned_cons hexec, hret, Nat.add_comm k 1, Regs.elemsFrom_add, Nat.zero_add]
      exact congrArg _ (s.regs.elemsFrom_tail s.mem 1 0 k)

/-! ### Runs of ENQs (43_bulk.md R133) -/

theorem State.Usable.exec_enq (hs : s.Usable) {e : Elem} (he : e.length = s.regs.esize.toNat)
    (hroom : s.regs.occ.toNat < s.regs.cap.toNat) : exec (.enq [e]) s = .next (s.enqueued [e] 0) := by
  obtain ⟨hgone, herr⟩ := hs.storage_answers
  obtain ⟨hI, hc, -⟩ := hs
  have hfull : ¬ s.regs.full = true := fun hf => by have := s.regs.full_iff.1 hf; omega
  rw [exec_enq_of_not_full hc hgone (State.dataOk_singleton.2 he) hfull]
  exact State.enqueue_next hI hc herr [e] 0

/-- ENQs on a full buffer all fail. -/
theorem runCommands_enqs_of_full {es : List Elem} (hg : s.storageGone = false)
    (hsized : ∀ e ∈ es, e.length = s.regs.esize.toNat) (hf : 0 < es.length → s.regs.full = true) :
    ∃ y, runCommands (es.map fun e => .enq [e]) s = .next (s.withRsp y) ∧
      okCount (es.map fun e => .enq [e]) s = 0 := by
  refine runCommands_of_all_fail fun i hi y => ?_
  obtain ⟨e, he, rfl⟩ := List.mem_map.1 hi
  exact exec_enq_of_full hg (State.dataOk_singleton.2 (hsized e he)) (hf (List.length_pos_of_mem he))

theorem State.Usable.exec_enqn (hs : s.Usable) {n : Nat} {data : List Elem}
    (hd : dataShaped s.regs.esize.toNat n data = true) :
    exec (.enqn n data) s = .next (s.enqueued (data.take (min n s.regs.space.toNat)) (min n s.regs.space.toNat)) := by
  obtain ⟨hgone, herr⟩ := hs.storage_answers
  obtain ⟨hI, hc, -⟩ := hs
  rw [exec_enqn_of_dataOk hc hgone hd]
  exact State.enqueue_next hI hc herr _ _

/-- Once HEAD has advanced by 1, the write slots are the later ones of before. -/
theorem Regs.enqCells_head_succ {p : Params} (r : Regs p) (n : Nat) (es : List Elem) :
    Regs.enqCells { r with head := r.head + BitVec.ofNat p.ctrW 1 } n es = r.enqCells (n + 1) es := by
  induction es generalizing n with
  | nil => rfl
  | cons e es ih =>
    have haddr : Regs.enqAddr { r with head := r.head + BitVec.ofNat p.ctrW 1 } n = r.enqAddr (n + 1) := by
      simp only [Regs.enqAddr, add_ofNat_one_add_ofNat]
      rfl
    rw [Regs.enqCells, Regs.enqCells, ih, haddr]

/-- As many ENQs as there are free slots all succeed, and store what one ENQN stores. -/
theorem runCommands_enqs {es : List Elem} (hs : s.Usable) (hsized : ∀ e ∈ es, e.length = s.regs.esize.toNat)
    (hfit : s.regs.occ.toNat + es.length ≤ s.regs.cap.toNat) :
    ∃ y, runCommands (es.map fun e => .enq [e]) s =
        .next ((s.enqueued es 0).withRsp y) ∧
      okCount (es.map fun e => .enq [e]) s = es.length := by
  induction es generalizing s with
  | nil => exact ⟨s.rsp, by
      simp only [State.withRsp, Regs.enqCells, Memory.writeCells_nil, List.length_nil, BitVec.add_zero]; rfl, rfl⟩
  | cons e es ih =>
    rw [List.length_cons] at hfit
    obtain ⟨he, hsized⟩ := List.forall_mem_cons.1 hsized
    have hexec := hs.exec_enq he (by omega)
    have hu := ((Effect.of_exec hexec).usable rfl hs).1
    have hcap := s.regs.cap.isLt
    have hocc : (s.enqueued [e] 0).regs.occ.toNat = s.regs.occ.toNat + 1 := s.regs.occ_add_head (k := 1) (by omega)
    obtain ⟨y, hrun, hok⟩ := ih hu hsized (by rw [hocc]; show _ ≤ s.regs.cap.toNat; omega)
    refine ⟨y, ?_, ?_⟩
    · rw [List.map_cons, runCommands_cons hexec, hrun]
      simp only [State.withRsp, State.enqueued, List.length_cons, List.length_nil, Nat.zero_add, add_ofNat_one_add_ofNat,
        Regs.enqCells_head_succ, Regs.enqCells, Memory.writeCells_append, List.append_nil]
    · rw [List.map_cons, okCount_cons hexec, hok, List.length_cons, Nat.add_comm]
      rfl

/-! ### Runs without a mutating command (41_single_element.md R111) -/

/-- A command that answers a next state with `OK = 0` fails. -/
theorem fails_of_not_succeeds (h : exec i s = .next t) (hm : succeeds i s = false) : Fails (.next t) := by
  obtain ⟨r, x, b, rfl, -⟩ := exec_shape h
  have hok : x.ok = false := by simpa [succeeds, h, responseOf] using hm
  exact ⟨x.val.toNat, x.r, by simp only [responseOf, Option.map_some, hok]⟩

theorem only_responds_of_not_mutates (h : exec i s = .next t) (hm : mutates i s = false) :
    ∃ x, t = { s with rsp := some x } := by
  refine nothingMovedNothingChanged i s t h ?_
  cases i with
  | init | enq | deq => exact .inr (.inl (fails_of_not_succeeds h hm))
  | enqn n data => exact .inr (.inr ⟨rfl, by simpa [mutates] using hm, rfl⟩)
  | deqn n => exact .inr (.inr ⟨rfl, rfl, by simpa [mutates] using hm⟩)
  | peek | isempty | isfull | occ | reserved => exact .inl rfl

theorem only_responds_of_noneMutates {is : List Instr} (hm : noneMutates is s = true) (h : runCommands is s = .next t) :
    ∃ y, t = s.withRsp y := by
  induction is generalizing s with
  | nil => cases h; exact ⟨t.rsp, rfl⟩
  | cons i is ih =>
    obtain ⟨u, hu, hrun⟩ := exists_of_runCommands_cons h
    rw [noneMutates_cons hu, Bool.and_eq_true, Bool.not_eq_true'] at hm
    obtain ⟨hi, his⟩ := hm
    obtain ⟨x, rfl⟩ := only_responds_of_not_mutates hu hi
    obtain ⟨y, rfl⟩ := ih his hrun
    exact ⟨y, rfl⟩

/-- PEEK does not look at the response before it. -/
theorem exec_peek_withRsp (s : State) (y : Option (Response s.params)) (idx : Nat) :
    exec (.peek idx) (s.withRsp y) = exec (.peek idx) s := rfl

/-! ### The counting law (10_state.md R41) -/

/-- One command's part of the law. -/
theorem Effect.counting (h : Effect i s t) (hi : i.isInit = false) (hI : s.regs.Inv) :
    t.params = s.params ∧
    t.regs.value .head = (s.regs.value .head + elemsStored i s) % 2 ^ s.params.ctrW ∧
    t.regs.value .tail = (s.regs.value .tail + elemsRemoved i s) % 2 ^ s.params.ctrW ∧
    t.regs.occ.toNat + elemsRemoved i s = s.regs.occ.toNat + elemsStored i s := by
  have hhead : s.regs.value .head % 2 ^ s.params.ctrW = s.regs.value .head := Nat.mod_eq_of_lt s.regs.head.isLt
  have htail : s.regs.value .tail % 2 ^ s.params.ctrW = s.regs.value .tail := Nat.mod_eq_of_lt s.regs.tail.isLt
  have hadd : ∀ (c : BitVec s.params.ctrW) (k : Nat),
      (c + BitVec.ofNat _ k).toNat = (c.toNat + k) % 2 ^ s.params.ctrW := fun c k => by
    rw [BitVec.toNat_add, BitVec.toNat_ofNat, Nat.add_mod_mod]
  cases h with
  | answered x hstored hremoved => rw [hstored, hremoved]; exact ⟨rfl, hhead.symm, htail.symm, rfl⟩
  | configured base esize num hinit => rw [hinit] at hi; cases hi
  | enqueued es val ho hc hes hsized hcount =>
    have hfit := occ_add_elemsStored_le hI hc i
    rw [hcount] at hfit ⊢
    rw [elemsRemoved_eq_zero_of_opcode ho]
    exact ⟨rfl, hadd _ _, htail.symm, s.regs.occ_add_head (hfit.trans_lt s.regs.cap.isLt)⟩
  | dequeued k val ho hc hk =>
    have hle : k ≤ s.regs.occ.toNat := hk ▸ elemsRemoved_le_occ i s
    have hocc : (s.dequeued k val).regs.occ.toNat = s.regs.occ.toNat - k := s.regs.occ_add_tail hle
    rw [elemsStored_eq_zero_of_opcode ho, hk, hocc, Nat.sub_add_cancel hle]
    exact ⟨rfl, hhead.symm, hadd _ _, rfl⟩

end Sys2Proof.Machine

open Sys2Proof Sys2Proof.Machine

/-- Settles O31: `i` DEQs advance TAIL by `i`, which makes logical position 0 what position `i` was. -/
theorem peekAgreesWithDequeues : Obligations.PeekAgreesWithDequeues := by
  intro s i hs hi
  obtain ⟨hgone, herr⟩ := hs.storage_answers
  obtain ⟨y, hrun, -⟩ := runCommands_deqs hs hi.le
  obtain ⟨hI, hc, hb, hstale⟩ := hs
  have hu : State.Usable ((s.dequeued i 0).withRsp y) := ⟨hI.dequeued hc hi.le, hc, hb, hstale⟩
  have hocc : (s.dequeued i 0).regs.occ.toNat = s.regs.occ.toNat - i := s.regs.occ_add_tail hi.le
  have hpos : 1 ≤ (s.dequeued i 0).regs.occ.toNat := by omega
  refine ⟨_, s.regs.elemAt s.mem i, hrun, ?_, ?_⟩
  · rw [hu.exec_deq hpos]
    simp only [responseOf, Option.map_some, Regs.elemsFrom_tail]
    rfl
  · rw [exec_peek_of_lt_occ hI hc hgone herr hi]
    rfl

/-- Settles O32: a run without a mutating command changes the response alone, which PEEK does not look at. -/
theorem peekIsIdempotent : Obligations.PeekIsIdempotent := by
  intro s t i is hm h
  obtain ⟨y, rfl⟩ := only_responds_of_noneMutates hm h
  rw [exec_peek_withRsp]

/-- Settles O40: the first `k` ENQs fit and store what ENQN stores; where elements are left over, `k` was SPACE and the buffer is
full. -/
theorem enqnIsRepeatedEnq : Obligations.EnqnIsRepeatedEnq := by
  intro s n data hs hd
  obtain ⟨hgone, -⟩ := hs.storage_answers
  obtain ⟨hlen, hsized⟩ := dataShaped_iff.1 hd
  have hexec := hs.exec_enqn hd
  have ⟨hI, hc, _, _⟩ := hs
  have hle := hI.occ_le hc
  have hfit := hI.occ_add_min_space hc n
  have hspace := hI.space_toNat hc
  generalize hk : min n s.regs.space.toNat = k at hfit hexec
  have hcount : (data.take k).length = k := List.length_take_of_le (by omega)
  obtain ⟨y, hrun, hok⟩ := runCommands_enqs (es := data.take k) hs
    (fun e he => hsized e (List.mem_of_mem_take he)) (by rwa [hcount])
  have hocc : (s.enqueued (data.take k) 0).regs.occ.toNat = s.regs.occ.toNat + (data.take k).length :=
    s.regs.occ_add_head (by rw [hcount]; exact hfit.trans_lt s.regs.cap.isLt)
  rw [hcount] at hocc
  obtain ⟨y', hrest, hnone⟩ := runCommands_enqs_of_full (es := data.drop k) (s := (s.enqueued (data.take k) 0).withRsp y)
    hgone (fun e he => hsized e (List.mem_of_mem_drop he)) fun hleft => by
      rw [List.length_drop] at hleft
      exact (Regs.full_iff _).2 (hocc.trans (by show _ = s.regs.cap.toNat; omega))
  have hall : (data.map fun e => Instr.enq [e]) =
      ((data.take k).map fun e => .enq [e]) ++ (data.drop k).map fun e => .enq [e] := by
    rw [← List.map_append, List.take_append_drop]
  refine ⟨_, _, y', k, rfl, hexec, ?_, ?_, hok.trans hcount⟩
  · rw [hall, runCommands_append hrun, hrest]
  · rw [hall, okCount_append hrun, hok, hnone, hcount, Nat.add_zero]

/-- Settles O41: `k` DEQs remove what DEQN removes; where DEQs are left over, `k` was OCC and the buffer is empty. -/
theorem deqnIsRepeatedDeq : Obligations.DeqnIsRepeatedDeq := by
  intro s n hs
  obtain ⟨hgone, -⟩ := hs.storage_answers
  have hexec := hs.exec_deqn n
  generalize hk : min n s.regs.occ.toNat = k at hexec
  have hle : k ≤ s.regs.occ.toNat := by omega
  obtain ⟨y, hrun, hok, hret⟩ := runCommands_deqs hs hle
  have hocc : (s.dequeued k 0).regs.occ.toNat = s.regs.occ.toNat - k := s.regs.occ_add_tail hle
  obtain ⟨y', hrest, hnone⟩ := runCommands_deqs_of_empty (k := n - k) (s := (s.dequeued k 0).withRsp y) hgone
    fun hleft => (Regs.empty_iff _).2 (hocc.trans (by omega))
  have hall : List.replicate n Instr.deq = List.replicate k .deq ++ List.replicate (n - k) .deq := by
    rw [← List.replicate_add, Nat.add_sub_cancel' (by omega)]
  refine ⟨_, y, y', k, rfl, by rw [hret]; exact hexec, hrun, hok, ?_, ?_⟩
  · rw [hall, runCommands_append hrun, hrest]
  · rw [hall, okCount_append hrun, hok, hnone, Nat.add_zero]

/-- Settles O45, by induction on the run: each command advances HEAD by what it stores and TAIL by what it removes. -/
theorem countingLaw : Obligations.CountingLaw := by
  intro is
  induction is with
  | nil =>
    intro s t _ _ h
    cases h
    exact ⟨(Nat.mod_eq_of_lt s.regs.head.isLt).symm, (Nat.mod_eq_of_lt s.regs.tail.isLt).symm, rfl⟩
  | cons i is ih =>
    intro s t hI his h
    obtain ⟨hi, his⟩ := List.forall_mem_cons.1 his
    obtain ⟨u, hu, hrun⟩ := exists_of_runCommands_cons h
    obtain ⟨hp, hhead, htail, hocc⟩ := (Effect.of_exec hu).counting hi hI
    obtain ⟨hhead', htail', hocc'⟩ := ih u t ((Effect.of_exec hu).inv hI) his hrun
    rw [runSum_cons hu, runSum_cons hu]
    refine ⟨?_, ?_, by omega⟩
    · rw [hhead', hhead, hp, Nat.mod_add_mod, Nat.add_assoc]
    · rw [htail', htail, hp, Nat.mod_add_mod, Nat.add_assoc]
end

section
/-! PROOFS. Steps (00_scope.md R15, 30_encoding.md R71, 70_reset_and_hazards.md R170, 20_memory.md sections 5 and 6): a stream of
requests as a run of commands, what each input does to the registers and to the record of a release, reset, other agents'
accesses, and the statements about these. -/

namespace Sys2Proof.Machine

variable {i : Instr} {s t : State}

/-! ### A command does not look at what is offered after it (30_encoding.md R71) -/

/-- The first `n` inputs are gone. -/
abbrev State.dropInputs (n : Nat) (s : State) : State := { s with inputs := s.inputs.drop n }

/-- A result with its next state changed. -/
def mapNext (f : State → State) : Result → Result
  | .next t => .next (f t)
  | .fault c => .fault c
  | .refused c => .refused c

theorem mapNext_ite (f : State → State) (c : Prop) [Decidable c] (x y : Result) :
    mapNext f (if c then x else y) = if c then mapNext f x else mapNext f y := apply_ite (mapNext f) c x y

theorem State.useBuffer_dropInputs (n : Nat) (s : State) (body : Result) :
    (s.dropInputs n).useBuffer (mapNext (State.dropInputs n) body) = mapNext (State.dropInputs n) (s.useBuffer body) := by
  simp only [State.useBuffer, mapNext_ite]
  rfl

theorem State.access_dropInputs (n : Nat) (s : State) (xs : List (Nat × Nat)) (done : State) :
    (s.dropInputs n).access xs (done.dropInputs n) = mapNext (State.dropInputs n) (s.access xs done) := by
  simp only [State.access, mapNext_ite]
  rfl

theorem exec_dropInputs (i : Instr) (n : Nat) (s : State) :
    exec i (s.dropInputs n) = mapNext (State.dropInputs n) (exec i s) := by
  cases i with
  | init base esize num => simp only [exec, execInit, mapNext_ite]; rfl
  | enq data =>
    simp only [exec, execEnq, ← State.useBuffer_dropInputs, mapNext_ite, State.enqueue, ← State.access_dropInputs]
    rfl
  | deq =>
    simp only [exec, execDeq, ← State.useBuffer_dropInputs, mapNext_ite, State.dequeue, ← State.access_dropInputs]
    rfl
  | peek idx =>
    simp only [exec, execPeek, ← State.useBuffer_dropInputs, mapNext_ite, ← State.access_dropInputs]
    rfl
  | isempty => simp only [exec, execIsempty, ← State.useBuffer_dropInputs]; rfl
  | isfull => simp only [exec, execIsfull, ← State.useBuffer_dropInputs]; rfl
  | occ => simp only [exec, execOcc, ← State.useBuffer_dropInputs]; rfl
  | enqn k data =>
    simp only [exec, execEnqn, ← State.useBuffer_dropInputs, mapNext_ite, State.enqueue, ← State.access_dropInputs]
    rfl
  | deqn k => simp only [exec, execDeqn, ← State.useBuffer_dropInputs, State.dequeue, ← State.access_dropInputs]
  | reserved cmd => rfl

theorem State.reqReady_of_rst {s : State} (h : s.rst = false) : s.reqReady = true := by rw [State.reqReady, h]; rfl

/-- A step that takes a request runs its command. -/
theorem step_command {q : Request s.params} {rest : List (Input s.params)} (hI : s.regs.Inv) (hr : s.rst = false)
    (hi : s.inputs = .command q :: rest) : step s = exec (decode q) (s.withInputs rest) := by
  rw [step_input hI hi]
  exact if_pos (State.reqReady_of_rst hr)

/-! ### The registers and the record of a release (10_state.md R27, 20_memory.md section 6) -/

theorem Regs.value_of_ne_counter {p : Params} (r : Regs p) (hd tl : BitVec p.ctrW) {id : RegId} (hh : id ≠ .head)
    (ht : id ≠ .tail) : Regs.value { r with head := hd, tail := tl } id = r.value id := by
  cases id with
  | head => exact absurd rfl hh
  | tail => exact absurd rfl ht
  | base | esize | cap | cfg => rfl

/-- A decoded INIT that is valid is byte 0x01 with valid fields. -/
theorem valid_request_of_valid_init {q : Request s.params} {base esize num : Nat} (hi : decode q = .init base esize num)
    (hv : initValid (s.addrOperand base) (s.countOperand esize) (s.countOperand num) = true) :
    q.cmd = 0x01 ∧ initValid q.a q.b q.c = true := by
  have hcmd : q.cmd = 0x01 := (isInit_decode_iff q).1 (by rw [hi]; rfl)
  have hdec : decode q = .init q.a.toNat q.b.toNat q.c.toNat := decode_of_cmd_eq .init hcmd
  obtain ⟨rfl, rfl, rfl⟩ : q.a.toNat = base ∧ q.b.toNat = esize ∧ q.c.toNat = num := by simpa [hdec] using hi
  simp only [State.addrOperand_toNat, State.countOperand_toNat] at hv
  exact ⟨hcmd, hv⟩

/-- The commands that write each register. -/
theorem Effect.registers {q : Request s.params} (h : Effect (decode q) s t) :
    (q.cmd = 0x01 ∧ initValid q.a q.b q.c = true) ∨
      ((∀ r, r ≠ .head → r ≠ .tail → t.regs.value r = s.regs.value r) ∧
        (t.regs.value .head = s.regs.value .head ∨ q.cmd = 0x02 ∨ q.cmd = 0x08) ∧
        (t.regs.value .tail = s.regs.value .tail ∨ q.cmd = 0x03 ∨ q.cmd = 0x09)) := by
  have hcmd := opcode_decode_eq_some_iff q
  cases h with
  | answered x => exact .inr ⟨fun _ _ _ => rfl, .inl rfl, .inl rfl⟩
  | configured base esize num hi hv => exact .inl (valid_request_of_valid_init hi hv)
  | enqueued es val ho =>
    exact .inr ⟨fun _ => s.regs.value_of_ne_counter _ _, .inr (ho.imp (hcmd .enq).1 (hcmd .enqn).1), .inl rfl⟩
  | dequeued k val ho =>
    exact .inr ⟨fun _ => s.regs.value_of_ne_counter _ _, .inl rfl, .inr (ho.imp (hcmd .deq).1 (hcmd .deqn).1)⟩

/-- Only a valid INIT writes the record of a release, and no command the condition of the storage. -/
theorem Effect.release {q : Request s.params} (h : Effect (decode q) s t) :
    (t.backing = s.backing ∧ t.stale = s.stale) ∨ (q.cmd = 0x01 ∧ initValid q.a q.b q.c = true) := by
  cases h with
  | answered | enqueued | dequeued => exact .inl ⟨rfl, rfl⟩
  | configured base esize num hi hv => exact .inr (valid_request_of_valid_init hi hv)

/-- Reset leaves the record of a release and the condition of the storage alone. -/
theorem State.driveReset_release (s : State) (level : Bool) :
    (s.driveReset level).backing = s.backing ∧ (s.driveReset level).stale = s.stale := by
  simp only [State.driveReset]
  split
  · exact ⟨rfl, rfl⟩
  · split <;> exact ⟨rfl, rfl⟩

/-- A released or once released storage stays so over every input but a command that is a valid INIT. -/
theorem Taken.keeps_release {x : Input s.params} (h : Taken s x t) (hs : s.backing = .released ∨ s.stale = true) :
    (t.backing = .released ∨ t.stale = true) ∨
      ∃ q : Request s.params, ((∃ o, x = .racingCommand q o) ∨ x = .command q) ∧ q.cmd = 0x01 ∧
        initValid q.a q.b q.c = true := by
  have hsame : ∀ {u : State}, u.backing = s.backing ∧ u.stale = s.stale → u.backing = .released ∨ u.stale = true :=
    fun ⟨hb, hst⟩ => by rwa [hb, hst]
  cases h with
  | @ran q t h => exact (Effect.of_exec h).release.imp hsame fun hinit => ⟨q, .inr rfl, hinit⟩
  | @raced q o t h =>
    obtain ⟨u, d, n, hu, rfl, -⟩ := raceCommand_eq_next h
    have hrel := Effect.release (q := q)
      (s := s.withMem (drawCells s.mem s.draws (foreignCells o.writes))) (Effect.of_exec hu)
    exact hrel.imp hsame fun hinit => ⟨q, .inl ⟨o, rfl⟩, hinit⟩
  | abandoned h =>
    obtain ⟨u, d, n, -, rfl⟩ := abandonCommand_eq_next h
    exact .inl hs
  | reset level => exact .inl (hsame (s.driveReset_release level))
  | notTransferred | foreignOnly | foreignWrite | foreignRead => exact .inl hs
  | storage condition =>
    refine .inl (.inr ?_)
    rw [State.setBacking_stale, Bool.or_eq_true, decide_eq_true_iff]
    exact hs.symm

/-- Which inputs write which registers. -/
theorem Taken.registers {x : Input s.params} (h : Taken s x t) :
    (∃ b, x = .rst b) ∨ (∃ q o, x = .abandonedCommand q o) ∨
    (∃ q : Request s.params, ((∃ o, x = .racingCommand q o) ∨ x = .command q) ∧
      ((q.cmd = 0x01 ∧ initValid q.a q.b q.c = true) ∨
        ((∀ r, r ≠ .head → r ≠ .tail → t.regs.value r = s.regs.value r) ∧
          (t.regs.value .head = s.regs.value .head ∨ q.cmd = 0x02 ∨ q.cmd = 0x08) ∧
          (t.regs.value .tail = s.regs.value .tail ∨ q.cmd = 0x03 ∨ q.cmd = 0x09)))) ∨
    ∀ r, t.regs.value r = s.regs.value r := by
  cases h with
  | @ran q t h => exact .inr (.inr (.inl ⟨q, .inr rfl, (Effect.of_exec h).registers⟩))
  | @raced q o t h =>
    obtain ⟨u, d, n, hu, rfl, -⟩ := raceCommand_eq_next h
    have hregs := Effect.registers (q := q)
      (s := s.withMem (drawCells s.mem s.draws (foreignCells o.writes))) (Effect.of_exec hu)
    exact .inr (.inr (.inl ⟨q, .inl ⟨o, rfl⟩, hregs⟩))
  | @abandoned q o => exact .inr (.inl ⟨q, o, rfl⟩)
  | reset level => exact .inl ⟨level, rfl⟩
  | notTransferred | foreignOnly | foreignWrite | foreignRead | storage => exact .inr (.inr (.inr fun _ => rfl))

/-! ### An abandoned command (70_reset_and_hazards.md R170) -/

/-- What an abandoned command that no other agent's access overlaps leaves. -/
theorem abandonCommand_alone {u : State} (h : exec i s = .next u) :
    ∃ m n, abandonCommand i s ⟨[], []⟩ = .next { s.assertReset with mem := m, foreignData := [], draws := n } ∧
      ∀ a, m.read a = s.mem.read a ∨ (a, m.read a) ∈ storedCells i s := by
  refine ⟨drawCells s.mem s.draws (storedCells i s), s.draws + (storedCells i s).length, ?_, read_drawCells _ _ _⟩
  simp [abandonCommand, h, foreignCells, apart, clashing, drawReads]

/-! ### Other agents' accesses (20_memory.md R62) -/

theorem Memory.read_writeCells_singleton (m : Memory) (a x : Nat) (b : Byte) :
    (m.writeCells [(a, b)]).read x = if x = a then b else m.read x := by
  rw [Memory.writeCells_cons, Memory.writeCells_nil, Memory.read_write]

/-- What stores leave at an address depends on what was at that address before. -/
theorem Memory.read_writeCells_congr {m m' : Memory} {a : Nat} (h : m.read a = m'.read a) (cs : List Host.Cell) :
    (m.writeCells cs).read a = (m'.writeCells cs).read a := by
  induction cs generalizing m m' with
  | nil => simpa using h
  | cons c cs ih =>
    rw [Memory.writeCells_cons, Memory.writeCells_cons]
    exact ih (by rw [Memory.read_write, Memory.read_write, h])

/-- Only the stores to an address matter there. -/
theorem Memory.read_writeCells_filter (m : Memory) (cs : List Host.Cell) (a : Nat) :
    (m.writeCells cs).read a = (m.writeCells (cs.filter fun c => decide (c.1 = a))).read a := by
  induction cs generalizing m with
  | nil => rfl
  | cons c cs ih =>
    rw [Memory.writeCells_cons, ih, List.filter_cons]
    split
    case isTrue => rw [Memory.writeCells_cons]
    case isFalse hc =>
      refine Memory.read_writeCells_congr ?_ _
      rw [Memory.read_write, if_neg fun ha => hc (by simp [ha])]

/-- A byte after stores is the old one or a stored one. -/
theorem Memory.read_writeCells_old_or_new (m : Memory) (cs : List Host.Cell) (a : Nat) :
    (m.writeCells cs).read a = m.read a ∨ (a, (m.writeCells cs).read a) ∈ cs := by
  induction cs generalizing m with
  | nil => simp
  | cons c cs ih =>
    rw [Memory.writeCells_cons]
    rcases ih (m.write c.1 c.2) with h | h
    · rw [h, Memory.read_write]
      split
      next hac => exact .inr (List.mem_cons.2 (.inl (by rw [hac])))
      · exact .inl rfl
    · exact .inr (List.mem_cons_of_mem _ h)

/-- Drawn stores leave alone every address none of them goes to. -/
theorem read_drawCells_of_not_touched (m : Memory) (n : Nat) {cs : List Host.Cell} {a : Nat} (h : ∀ c ∈ cs, c.1 ≠ a) :
    (drawCells m n cs).read a = m.read a :=
  (read_drawCells m n cs a).resolve_right fun hmem => h _ hmem rfl

/-- No store goes to an address that the stores do not touch. -/
theorem filter_eq_nil_of_touches {cs : List Host.Cell} {a : Nat} (h : touches cs a = false) :
    (cs.filter fun c => decide (c.1 = a)) = [] :=
  List.filter_eq_nil_iff.2 fun c hc => by simpa using touches_eq_false.1 h c hc

/-- At an address that the others do not touch, what is apart from them is everything. -/
theorem filter_apart {cs ds : List Host.Cell} {a : Nat} (h : touches ds a = false) :
    ((apart cs ds).filter fun c => decide (c.1 = a)) = cs.filter fun c => decide (c.1 = a) := by
  rw [apart, List.filter_filter]
  refine List.filter_congr fun c _ => ?_
  by_cases hc : c.1 = a
  · simp [hc, h]
  · simp [hc]

theorem touches_apart {cs ds : List Host.Cell} {a : Nat} (h : touches cs a = false) : touches (apart cs ds) a = false :=
  touches_eq_false.2 fun c hc => touches_eq_false.1 h c (mem_of_mem_apart hc)

/-- No clash at an address that one side does not touch. -/
theorem ne_of_mem_clashing {cs ds : List Host.Cell} {a : Nat} (h : touches cs a = false ∨ touches ds a = false) :
    ∀ c ∈ clashing cs ds ++ clashing ds cs, c.1 ≠ a := by
  rintro c hc rfl
  have hboth : touches cs c.1 = true ∧ touches ds c.1 = true := by
    rcases List.mem_append.1 hc with hc | hc
    · obtain ⟨hmem, ht⟩ := mem_clashing.1 hc
      exact ⟨List.any_eq_true.2 ⟨c, hmem, by simp⟩, ht⟩
    · obtain ⟨hmem, ht⟩ := mem_clashing.1 hc
      exact ⟨ht, List.any_eq_true.2 ⟨c, hmem, by simp⟩⟩
  rcases h with h | h
  · exact absurd hboth.1 (by simp [h])
  · exact absurd hboth.2 (by simp [h])

/-- The storage that a race between the stores of two sides leaves. -/
def racedMem (m : Memory) (n : Nat) (cs ds : List Host.Cell) : Memory :=
  drawCells (m.writeCells (apart cs ds ++ apart ds cs)) n (clashing cs ds ++ clashing ds cs)

theorem read_racedMem_of_not_right (m : Memory) (n : Nat) {cs ds : List Host.Cell} {a : Nat} (h : touches ds a = false) :
    (racedMem m n cs ds).read a = (m.writeCells cs).read a := by
  rw [racedMem, read_drawCells_of_not_touched _ _ (ne_of_mem_clashing (.inr h)), Memory.read_writeCells_filter,
    List.filter_append, filter_apart h, filter_eq_nil_of_touches (touches_apart h), List.append_nil,
    ← Memory.read_writeCells_filter]

theorem read_racedMem_of_not_left (m : Memory) (n : Nat) {cs ds : List Host.Cell} {a : Nat} (h : touches cs a = false) :
    (racedMem m n cs ds).read a = (m.writeCells ds).read a := by
  rw [racedMem, read_drawCells_of_not_touched _ _ (ne_of_mem_clashing (.inl h)), Memory.read_writeCells_filter,
    List.filter_append, filter_apart h, filter_eq_nil_of_touches (touches_apart h), List.nil_append,
    ← Memory.read_writeCells_filter]

theorem read_racedMem_old_or_new (m : Memory) (n : Nat) (cs ds : List Host.Cell) (a : Nat) :
    (racedMem m n cs ds).read a = m.read a ∨ (a, (racedMem m n cs ds).read a) ∈ cs ∨
      (a, (racedMem m n cs ds).read a) ∈ ds := by
  rcases read_drawCells (m.writeCells (apart cs ds ++ apart ds cs)) n (clashing cs ds ++ clashing ds cs) a with h | h
  · rw [racedMem, h]
    exact (Memory.read_writeCells_old_or_new m _ a).imp_right mem_or_mem_of_mem_apart
  · exact .inr (mem_or_mem_of_mem_clashing h)

@[simp] theorem drawReads_length (m : Memory) (cs : List Host.Cell) (n : Nat) (as : List Nat) :
    (drawReads m cs n as).length = as.length := by
  induction as generalizing n with
  | nil => rfl
  | cons a as ih => simp [drawReads, ih]

/-- Each racing read is drawn by itself. -/
theorem getElem?_drawReads (m : Memory) (cs : List Host.Cell) (n : Nat) (as : List Nat) (k : Nat) :
    ∃ l, (drawReads m cs n as)[k]? = as[k]?.map (drawRead m cs l) := by
  induction as generalizing n k with
  | nil => exact ⟨n, rfl⟩
  | cons a as ih =>
    cases k with
    | zero => exact ⟨n, rfl⟩
    | succ k => simpa [drawReads] using ih (n + cs.length) k

/-- A racing read returns the old byte or a new one. -/
theorem drawRead_old_or_new (m : Memory) (cs : List Host.Cell) (n a : Nat) :
    drawRead m cs n a = m.read a ∨ (a, drawRead m cs n a) ∈ cs :=
  (read_drawCells m n _ a).imp_right List.mem_of_mem_filter

theorem drawReads_old_or_new {m : Memory} {cs : List Host.Cell} {n : Nat} {as : List Nat} {k a : Nat} {b : Byte}
    (ha : as[k]? = some a) (hb : (drawReads m cs n as)[k]? = some b) : b = m.read a ∨ (a, b) ∈ cs := by
  obtain ⟨l, hl⟩ := getElem?_drawReads m cs n as k
  rw [hb, ha, Option.map_some, Option.some.injEq] at hl
  rw [hl]
  exact drawRead_old_or_new m cs l a

end Sys2Proof.Machine

open Sys2Proof Sys2Proof.Machine

/-- Settles O7: INV holds and `rst` is not asserted, so the request is transferred. -/
theorem stepRunsDecodedCommand : Obligations.StepRunsDecodedCommand := fun _ _ _ => step_command

/-- Settles O8, by induction on the stream: a command keeps INV, `rst` and the inputs, and its result does not depend on what
is offered after it. -/
theorem stepsRunTheCommandStream : Obligations.StepsRunTheCommandStream := by
  intro s qs
  generalize hn : qs.length = n
  induction n generalizing s with
  | zero =>
    intro rest _ _ hi
    obtain rfl := List.length_eq_zero_iff.1 hn
    exact congrArg Host.Outcome.next (congrArg s.withInputs hi)
  | succ n ih =>
    intro rest hI hr hi
    obtain ⟨q, qs, rfl⟩ := List.exists_cons_of_length_eq_add_one hn
    have hlen : (qs.map Input.command).length = n := by simpa using hn
    have hdrop : s.withInputs rest = (s.withInputs (qs.map Input.command ++ rest)).dropInputs n :=
      congrArg s.withInputs (List.drop_left' hlen).symm
    rw [runSteps, step_command hI hr hi, List.map_cons, runCommands, hdrop, exec_dropInputs]
    cases hx : exec (decode q) (s.withInputs (qs.map Input.command ++ rest)) with
    | fault | refused => rfl
    | next t =>
      have hIt := (Effect.of_exec hx).inv hI
      obtain ⟨r, x, b, rfl, -⟩ := exec_shape hx
      have hrun := ih { s with inputs := qs.map Input.command ++ rest, regs := r, mem := _, rsp := some x, stale := b } qs
        (by simpa using hn) rest hIt hr rfl
      simp only [mapNext, hrun, State.dropInputs, List.drop_left' hlen]

/-- Settles O14: the registers follow the effect of the command; no other input but reset and an abandoned command writes one. -/
theorem registersWrittenOnlyByTheMap : Obligations.RegistersWrittenOnlyByTheMap := by
  intro s t x rest hi h
  rw [step_input (inv_of_step_eq_next h) hi] at h
  exact Taken.registers (s := s.withInputs rest) (.of_takeInput h)

/-- Settles O22: the input that changes the storage's condition records a release, and every other input but a valid INIT leaves
the record and the condition alone. -/
theorem releaseLastsUntilInit : Obligations.ReleaseLastsUntilInit := by
  refine ⟨fun s rest hI hi => by rw [step_input hI hi]; rfl, fun s t hs h => ?_⟩
  rcases step_eq_next h with ⟨-, rfl⟩ | ⟨x, rest, hi, h⟩
  · exact .inl hs
  · refine (h.keeps_release hs).imp_right ?_
    rintro ⟨q, hx, hinit⟩
    exact ⟨q, x, rest, hi, hx, hinit⟩

/-- Settles O10: the level of `rst` gates both handshakes; either level sets the registers to their reset values and leaves
storage alone; and an abandoned command draws the bytes it stores. -/
theorem resetInput : Obligations.ResetInput := by
  refine ⟨fun s hr => ?_, fun s rest hI hi => ?_, fun s rest hI hr hi => ?_, fun s q rest u hI hr hi hu => ?_,
    fun s => State.outputs_eq_false_of_regs_eq_reset⟩
  · simp [State.reqReady, State.rspValid, hr]
  · rw [step_input hI hi]
    rfl
  · rw [step_input hI hi]
    exact congrArg Host.Outcome.next (State.driveReset_false_of_rst (s := s.withInputs rest) hr)
  · obtain ⟨m, n, habandon, hm⟩ := abandonCommand_alone hu
    refine ⟨m, n, ?_, by simpa using hm⟩
    rw [step_input hI hi]
    exact (if_pos (State.reqReady_of_rst hr)).trans habandon

/-- Settles O23: another agent's store is one store, and its read is one read. -/
theorem foreignAccessBetweenCommands : Obligations.ForeignAccessBetweenCommands := by
  intro s a b rest hI
  refine ⟨fun hi => ⟨s.mem.writeCells [(a.toNat, b)], ?_, fun x => Memory.read_writeCells_singleton .., fun k j => ?_⟩,
    fun hi => by rw [step_input hI hi]; rfl⟩
  · rw [step_input hI hi]
    rfl
  · rw [Regs.elemAt, Memory.getElem?_readBytes, Memory.read_writeCells_singleton]

/-- Settles O24: the command runs over drawn storage; the race's storage is that of one side wherever the other does not store,
and old or new everywhere; and so is each byte that the other agents read. -/
theorem racingBytesAreOldOrNew : Obligations.RacingBytesAreOldOrNew := by
  intro s t q o rest hr hi h
  rw [step_input (inv_of_step_eq_next h) hi] at h
  have hrace : raceCommand (decode q) (s.withInputs rest) o = .next t :=
    (if_pos (State.reqReady_of_rst hr)).symm.trans h
  obtain ⟨u, d, n, hu, rfl, hd⟩ := raceCommand_eq_next hrace
  obtain ⟨r, x, b, rfl, -⟩ := exec_shape hu
  rw [storedCells_of_regs] at hd hu
  refine ⟨_, racedMem s.mem (s.draws + (foreignCells o.writes).length) (storedCells (decode q) s) (foreignCells o.writes),
    r, x, b, d, n, read_drawCells _ _ _, hu, ?_, fun a hown halien => ?_, fun a => read_racedMem_of_not_right _ _,
    fun a => read_racedMem_of_not_left _ _, read_racedMem_old_or_new _ _ _ _, ?_, fun k a b ha hb => ?_⟩
  · simp only [racedMem, storedCells_of_regs]
  · rw [read_racedMem_of_not_right _ _ halien, Memory.read_writeCells_of_not_touched _ (touches_eq_false.1 hown)]
  · rw [hd, drawReads_length, List.length_map]
  · rw [hd] at hb
    rw [← List.mem_append]
    exact drawReads_old_or_new (by rw [List.getElem?_map, ha]; rfl) hb
end
